-- ==== Sys2Proof/Word.lean ====
section
/-! DEFINITION. The word of the machine (spec/00_scope.md R5, R6): every register, memory cell, stack entry and
instruction word is one 16-bit unsigned integer; the character streams carry bytes. -/

namespace Sys2Proof

/-- A word: a 16-bit unsigned integer (R6, glossary R9). -/
abbrev Word := BitVec 16

/-- A byte of a character stream, 0..255 (45_io.md R110, R112). -/
abbrev Byte := BitVec 8

end Sys2Proof
end

