-- ==== Sys2Proof/Config.lean ====
section
/-! DEFINITION. The fixed parameters of the machine (spec/00_scope.md R5) and the list of its fault kinds
(spec/60_exceptions.md R125). "The source fixes every size of the machine; none is left to the implementation":
there is no opaque constant here, because the spec leaves no value of any instruction open. -/

namespace Sys2Proof

/-- MEM_CELLS: addresses 0..32767 (R5, 20_memory.md R30). -/
def Config.memCells : Nat := 32768

/-- MODULUS of `add` and `mult` (R5, 41_alu.md R79, R80). -/
def Config.modulus : Nat := 32768

/-- The LITERAL range of an operand word is 0..32767 (R5, R47). -/
def Config.literalLimit : Nat := 32768

/-- The REGISTER-REFERENCE range of an operand word is 32768..32775 (R5, R47); from here on a word is INVALID. -/
def Config.operandLimit : Nat := 32776

/-- NUM_REGS (R5, 10_state.md R10). -/
def Config.numRegs : Nat := 8

/-- NUM_OPCODES: codes 0..21 (R5). -/
def Config.numOpcodes : Nat := 22

/-- Maximum instruction length in words: the opcode and 3 operands (R5, R46). -/
def Config.maxInstrWords : Nat := 4

/-- IMAGE_MAX_WORDS (R5, 46_host_interface.md R116; log 11). -/
def Config.imageMaxWords : Nat := 32768

/-- What a memory cell that nothing has written since reset reads as: 0 (10_state.md R24, stated by the spec). -/
def Config.unlistedCell : Word := 0

/-- The fault kinds: the complete list of 60_exceptions.md R125. `Halted` is not one of them (R138). -/
inductive ErrorKind where
  /-- A word fetched as opcode or operand is in 32776..65535 (R127). -/
  | invalidInstructionValue
  /-- The operand in a `dst` position decoded as a Literal (R128). -/
  | expectedRegisterOperand
  /-- The opcode word is in 22..32775 (R129). -/
  | invalidOpCode
  /-- `pop` or `ret` on an empty stack (R130). -/
  | stackUnderflow
  /-- The input stream answered Fail (R131). -/
  | inputReadFailure
  /-- The divisor of `mod` resolves to 0 (R132; log 2). -/
  | divisionByZero
  /-- An address in 32768..65535 is used for a fetch or a data access (R135; log 1). -/
  | memoryAddressOutOfRange
  deriving DecidableEq, Repr

/-- The spec's own number of a fault kind (R125, first column; no rule depends on it). -/
def ErrorKind.code : ErrorKind → Nat
  | .invalidInstructionValue => 1
  | .expectedRegisterOperand => 2
  | .invalidOpCode => 3
  | .stackUnderflow => 4
  | .inputReadFailure => 5
  | .divisionByZero => 6
  | .memoryAddressOutOfRange => 7

end Sys2Proof
end

