-- ==== Sys2Proof/Syntax.lean ====
section
/-! DEFINITION. The instruction set as syntax: the Operand (spec/00_scope.md R9, 40_fetch_decode_dispatch.md R60) and
one constructor per row of spec/opcode_table.json (30_encoding.md R49). An operand in a `dst` position may be a
Literal here, because the spec gives that instruction an effect: its handler faults with ExpectedRegisterOperand
(R50, R61). WellFormed.lean says which instructions are legal. -/

namespace Sys2Proof

/-- "a two-variant value — Literal(v) where 0≤v≤32767, or RegisterRef(i) where 0≤i≤7" (R60). -/
inductive Operand where
  | lit (v : Word)
  | reg (i : Fin 8)
  deriving DecidableEq, Repr

/-- The 22 instructions, in the order of their codes (R49). Operands are named a, b, c in encoding order (R45). -/
inductive Instr where
  | halt
  | set (a b : Operand)
  | push (a : Operand)
  | pop (a : Operand)
  | eq (a b c : Operand)
  | gt (a b c : Operand)
  | jmp (a : Operand)
  | jt (a b : Operand)
  | jf (a b : Operand)
  | add (a b c : Operand)
  | mult (a b c : Operand)
  | mod (a b c : Operand)
  | and (a b c : Operand)
  | or (a b c : Operand)
  | not (a b : Operand)
  | rmem (a b : Operand)
  | wmem (a b : Operand)
  | call (a : Operand)
  | ret
  | out (a : Operand)
  /-- The row `in`; the word is a keyword of Lean. -/
  | inp (a : Operand)
  | noop
  deriving DecidableEq, Repr

/-- An operand in the spec's assembly notation (R56): `r0`..`r7`, or the literal in decimal. -/
def Operand.asm : Operand → String
  | .lit v => toString v.toNat
  | .reg i => "r" ++ toString i.val

/-- An instruction in the spec's assembly notation (R56): the name, then the operands separated by commas. -/
def Instr.asm : Instr → String
  | .halt => "halt"
  | .set a b => "set " ++ a.asm ++ ", " ++ b.asm
  | .push a => "push " ++ a.asm
  | .pop a => "pop " ++ a.asm
  | .eq a b c => "eq " ++ a.asm ++ ", " ++ b.asm ++ ", " ++ c.asm
  | .gt a b c => "gt " ++ a.asm ++ ", " ++ b.asm ++ ", " ++ c.asm
  | .jmp a => "jmp " ++ a.asm
  | .jt a b => "jt " ++ a.asm ++ ", " ++ b.asm
  | .jf a b => "jf " ++ a.asm ++ ", " ++ b.asm
  | .add a b c => "add " ++ a.asm ++ ", " ++ b.asm ++ ", " ++ c.asm
  | .mult a b c => "mult " ++ a.asm ++ ", " ++ b.asm ++ ", " ++ c.asm
  | .mod a b c => "mod " ++ a.asm ++ ", " ++ b.asm ++ ", " ++ c.asm
  | .and a b c => "and " ++ a.asm ++ ", " ++ b.asm ++ ", " ++ c.asm
  | .or a b c => "or " ++ a.asm ++ ", " ++ b.asm ++ ", " ++ c.asm
  | .not a b => "not " ++ a.asm ++ ", " ++ b.asm
  | .rmem a b => "rmem " ++ a.asm ++ ", " ++ b.asm
  | .wmem a b => "wmem " ++ a.asm ++ ", " ++ b.asm
  | .call a => "call " ++ a.asm
  | .ret => "ret"
  | .out a => "out " ++ a.asm
  | .inp a => "in " ++ a.asm
  | .noop => "noop"

end Sys2Proof
end

