-- ==== Sys2Proof/WellFormed.lean ====
section
/-! DEFINITION. Which instructions are legal (spec/30_encoding.md R50, R52): every Literal is in 0..32767, and the
operand in a `dst` position is a RegisterRef. "Every other combination of a legal opcode word and legal operand
words is a legal instruction" (R52). -/

namespace Sys2Proof

/-- A `val` position: a Literal in 0..32767 or a RegisterRef (R49, R50). -/
def Operand.wfVal : Operand → Bool
  | .lit v => v.toNat < Config.literalLimit
  | .reg _ => true

/-- A `dst` position: a RegisterRef (R50). -/
def Operand.wfDst : Operand → Bool
  | .lit _ => false
  | .reg _ => true

/-- The operand columns of the opcode map (R49), row by row. -/
def Instr.wf : Instr → Bool
  | .halt => true
  | .set a b => a.wfDst && b.wfVal
  | .push a => a.wfVal
  | .pop a => a.wfDst
  | .eq a b c => a.wfDst && b.wfVal && c.wfVal
  | .gt a b c => a.wfDst && b.wfVal && c.wfVal
  | .jmp a => a.wfVal
  | .jt a b => a.wfVal && b.wfVal
  | .jf a b => a.wfVal && b.wfVal
  | .add a b c => a.wfDst && b.wfVal && c.wfVal
  | .mult a b c => a.wfDst && b.wfVal && c.wfVal
  | .mod a b c => a.wfDst && b.wfVal && c.wfVal
  | .and a b c => a.wfDst && b.wfVal && c.wfVal
  | .or a b c => a.wfDst && b.wfVal && c.wfVal
  | .not a b => a.wfDst && b.wfVal
  | .rmem a b => a.wfDst && b.wfVal
  | .wmem a b => a.wfVal && b.wfVal
  | .call a => a.wfVal
  | .ret => true
  | .out a => a.wfVal
  | .inp a => a.wfDst
  | .noop => true

end Sys2Proof
end

