-- ==== Sys2Proof/Decode.lean ====
section
/-! DEFINITION. The operand decoder (spec/40_fetch_decode_dispatch.md R60), the opcode map (30_encoding.md R49) and
the instruction decoder over a list of words, total, each rejection named by its fault kind and by the number of
words fetched when it is found (R64, R69, R71). After it the encoder, written from the same table. -/

namespace Sys2Proof

/-- `decode(w)` of R60: "Input 0..32767 → Literal(input). Input 32768..32775 → RegisterRef(input − 32768).
Input ≥32776 → fails with `InvalidInstructionValue`." -/
def decodeOperand (w : Word) : Except ErrorKind Operand :=
  if w.toNat < Config.literalLimit then .ok (.lit w)
  else if w.toNat < Config.operandLimit then .ok (.reg (Fin.ofNat 8 (w.toNat - 32768)))
  else .error .invalidInstructionValue

/-- What the decoder reads from the words at the instruction pointer: an instruction, or the fault kind that stops
it with the number of words fetched by then (the rows of R71). -/
inductive Decoded where
  | instr (i : Instr)
  | reject (k : ErrorKind) (fetched : Nat)
  deriving DecidableEq, Repr

/-- One operand fetch, `n` words having been fetched before it: no word left means that the address is above 32767
(R64: `MemoryAddressOutOfRange`, nothing fetched); a word that does not decode has been fetched (R64). -/
def readOperand (n : Nat) (ws : List Word) (k : Operand → List Word → Decoded) : Decoded :=
  match ws with
  | [] => .reject .memoryAddressOutOfRange n
  | w :: rest =>
    match decodeOperand w with
    | .error e => .reject e (n + 1)
    | .ok op => k op rest

/-- The check of a `dst` operand `a` comes directly after its own fetch, before operands b and c are fetched (R69),
so a Literal there outranks whatever the later words are. Where they decode, the handler itself raises it. -/
def registerCheckFirst (a : Operand) (later : Decoded) : Decoded :=
  match a, later with
  | .lit _, .reject _ _ => .reject .expectedRegisterOperand 2
  | _, d => d

/-- The shapes of the operand columns of R49. -/
inductive Shape where
  | none (i : Instr)
  | one (f : Operand → Instr)
  | val2 (f : Operand → Operand → Instr)
  | dst2 (f : Operand → Operand → Instr)
  | dst3 (f : Operand → Operand → Operand → Instr)

/-- The opcode map (R49): "the dispatch keys on the numeric value directly" (R66); anything else has no row. -/
def opcodeRow : Nat → Option Shape
  | 0 => some (.none .halt)
  | 1 => some (.dst2 .set)
  | 2 => some (.one .push)
  | 3 => some (.one .pop)
  | 4 => some (.dst3 .eq)
  | 5 => some (.dst3 .gt)
  | 6 => some (.one .jmp)
  | 7 => some (.val2 .jt)
  | 8 => some (.val2 .jf)
  | 9 => some (.dst3 .add)
  | 10 => some (.dst3 .mult)
  | 11 => some (.dst3 .mod)
  | 12 => some (.dst3 .and)
  | 13 => some (.dst3 .or)
  | 14 => some (.dst2 .not)
  | 15 => some (.dst2 .rmem)
  | 16 => some (.val2 .wmem)
  | 17 => some (.one .call)
  | 18 => some (.none .ret)
  | 19 => some (.one .out)
  | 20 => some (.one .inp)
  | 21 => some (.none .noop)
  | _ => none

/-- The arity of a shape (R45, R49). -/
def Shape.arity : Shape → Nat
  | .none _ => 0
  | .one _ => 1
  | .val2 _ => 2
  | .dst2 _ => 2
  | .dst3 _ => 3

/-- The operand fetches of one handler, in the order a, b, c, always all of them (R68). -/
def Shape.read : Shape → List Word → Decoded
  | .none i, _ => .instr i
  | .one f, ws => readOperand 1 ws fun a _ => .instr (f a)
  | .val2 f, ws => readOperand 1 ws fun a ws => readOperand 2 ws fun b _ => .instr (f a b)
  | .dst2 f, ws =>
    readOperand 1 ws fun a ws => registerCheckFirst a (readOperand 2 ws fun b _ => .instr (f a b))
  | .dst3 f, ws =>
    readOperand 1 ws fun a ws =>
      registerCheckFirst a
        (readOperand 2 ws fun b ws => readOperand 3 ws fun c _ => .instr (f a b c))

/-- Dispatch on the raw opcode word (R65, R66), after it has been fetched. -/
def dispatchWord (w : Word) (rest : List Word) : Decoded :=
  match opcodeRow w.toNat with
  | some shape => shape.read rest
  | none => .reject .invalidOpCode 1

/-- The instruction decoder. The opcode word is decoded like every fetched word, before dispatch (R67; log 3). -/
def decode (ws : List Word) : Decoded :=
  match ws with
  | [] => .reject .memoryAddressOutOfRange 0
  | w :: rest =>
    match decodeOperand w with
    | .error e => .reject e 1
    | .ok _ => dispatchWord w rest

/-- The word of an operand (R47): a Literal is itself, RegisterRef(i) is 32768 + i. -/
def Operand.word : Operand → Word
  | .lit v => v
  | .reg i => BitVec.ofNat 16 (32768 + i.val)

/-- The words of an instruction: the code, then the operands in the order a, b, c (R45, R49). -/
def encode : Instr → List Word
  | .halt => [0]
  | .set a b => [1, a.word, b.word]
  | .push a => [2, a.word]
  | .pop a => [3, a.word]
  | .eq a b c => [4, a.word, b.word, c.word]
  | .gt a b c => [5, a.word, b.word, c.word]
  | .jmp a => [6, a.word]
  | .jt a b => [7, a.word, b.word]
  | .jf a b => [8, a.word, b.word]
  | .add a b c => [9, a.word, b.word, c.word]
  | .mult a b c => [10, a.word, b.word, c.word]
  | .mod a b c => [11, a.word, b.word, c.word]
  | .and a b c => [12, a.word, b.word, c.word]
  | .or a b c => [13, a.word, b.word, c.word]
  | .not a b => [14, a.word, b.word]
  | .rmem a b => [15, a.word, b.word]
  | .wmem a b => [16, a.word, b.word]
  | .call a => [17, a.word]
  | .ret => [18]
  | .out a => [19, a.word]
  | .inp a => [20, a.word]
  | .noop => [21]

/-- The arity of an opcode word (R46: "the arity depends on the opcode word alone"); 0 where there is no row. -/
def wordArity (w : Word) : Nat :=
  match opcodeRow w.toNat with
  | some shape => shape.arity
  | none => 0

/-- The words of an instruction given as one number, bit 0 the least significant bit of the first word and the bits
above `nbits` zero (the numbering of spec/opcode_table.json). -/
def tableWords (nbits w : Nat) : List Word :=
  let v := w % 2 ^ nbits
  [BitVec.ofNat 16 v, BitVec.ofNat 16 (v / 2 ^ 16), BitVec.ofNat 16 (v / 2 ^ 32), BitVec.ofNat 16 (v / 2 ^ 48)]

/-- The instruction the decoder reads from a table word, `none` where it refuses. -/
def decodeTableWord (nbits w : Nat) : Option Instr :=
  match decode (tableWords nbits w) with
  | .instr i => some i
  | .reject _ _ => none

end Sys2Proof
end

