-- ==== Sys2Proof/Machine/State.lean ====
section
/-! DEFINITION. The state of the core (spec/10_state.md): `(reg[0..7], ip, stack, mem[0..32767], status)`, and the two
streams of the environment it touches. Plain data throughout. `State.reset` is Construct (70_reset_and_hazards.md R145). -/

namespace Sys2Proof.Machine

/-- One memory cell that is not 0: its word address and its content. The smallest unit the spec addresses is the
16-bit cell (20_memory.md R30: "There is no byte address"; log 13). -/
abbrev Cell := Nat × Word

/-- Memory (R18), sparse, in one canonical form (`Memory.wf`): addresses strictly rising and below 32768, no entry
equal to what an unlisted address reads as. -/
abbrev Memory := List Cell

/-- The run status (10_state.md R19): "Running, Halted (terminal) — plus an implicit Failed terminal state carrying an
error kind". -/
inductive Status where
  | running
  | halted
  | failed (k : ErrorKind)
  deriving DecidableEq, Repr

/-- One response of the input stream (R23, 45_io.md R112). Fail stands for end of stream and for an I/O fault. -/
inductive Response where
  | byte (b : Byte)
  | fail
  deriving DecidableEq, Repr

/-- The complete state of the machine and of the streams it touches (10_state.md, head and section 7). -/
structure State where
  /-- `reg[0..7]`, any 16-bit values (R10, R12). -/
  regs : Vector Word 8
  /-- The instruction pointer, 16 bits (R13, R15). -/
  ip : Word
  /-- The stack, unbounded; the head is the top entry (R16). -/
  stack : List Word
  /-- `mem[0..32767]` (R18). -/
  mem : Memory
  /-- The run status (R19). -/
  status : Status
  /-- The responses of the input stream that stand ready and are not yet consumed, the next one first (R23); an empty
  list means that the host has answered "not yet" (46_host_interface.md R122; log 15). -/
  input : List Response
  /-- The bytes the core has appended to the output stream since reset, oldest first (R22). -/
  output : List Byte
  /-- Whether LoadImage has been called since Construct. The model's own mark, not the spec's: it holds R116's "LoadImage
  is called at most once per Construct" (46_host_interface.md; log 11). No step reads or writes it. -/
  loaded : Bool
  deriving DecidableEq, Repr

/-- Why a step would stop the model with a fault outcome: never. Every fault of the spec is a change of state the spec
describes (60_exceptions.md R133: "`status` becomes Failed(K)"), so the model takes it as a next state; the spec gives no
instruction without an effect. The type has no constructor, so no step can answer a fault (safe). -/
inductive Fault where
  deriving DecidableEq, Repr

/-- Why the model gives something no meaning. `step` never refuses: the last three are answers of the host operations
of Machine/HostInterface.lean. -/
inductive Refusal where
  /-- An instruction without a meaning yet, by its mnemonic; raised by `exec`'s arms only (no arm raises it). Safe. -/
  | notModelled (mnemonic : String)
  /-- `loadImage` of more than 32768 words: "a longer image is refused by the model" (46 R116; log 11). Safe. -/
  | imageTooLong
  /-- `loadImage` a second time since Construct, or on a machine that is not as Construct left it (46 R116, 93 U8;
  log 11). Safe. -/
  | imageLoadedLate
  /-- `bootFile` of a file that is not whole words: the spec does not say what the loader does (91 N6; log 11). Safe. -/
  | oddImageFile
  deriving DecidableEq, Repr

/-- The machine right after reset (10_state.md R24 to R28, 70 R145): every cell 0, every register 0, stack empty, ip 0,
Running, nothing emitted, no image loaded; no response stands ready (DESIGN CHOICE, log 15: the spec leaves the input to the host). -/
def State.reset : State where
  regs := Vector.replicate 8 0
  ip := 0
  stack := []
  mem := []
  status := .running
  input := []
  output := []
  loaded := false

end Sys2Proof.Machine
end

