-- ==== Sys2Proof/Machine/Ops.lean ====
section
/-! DEFINITION. The named operations over memory, registers, the stack and the streams (the primitives of
spec/00_scope.md R7), and `raise`, the whole of taking a fault (60_exceptions.md R133). -/

namespace Sys2Proof.Machine

/-- What a step answers. -/
abbrev Result := Host.Outcome State Fault Refusal

/-! ### Memory -/

/-- The content of the cell at address `a`; a cell that is not listed holds 0 (10_state.md R24). -/
def Memory.get : Memory → Nat → Word
  | [], _ => Config.unlistedCell
  | (b, w) :: rest, a => if a = b then w else Memory.get rest a

/-- The entry of a cell in a list: nothing where it would say what an unlisted address says. -/
def Memory.entry (a : Nat) (v : Word) : Memory := if v = Config.unlistedCell then [] else [(a, v)]

/-- The cell at address `a` holds `v`, every other cell as before; the canonical form is kept. -/
def Memory.put : Memory → Nat → Word → Memory
  | [], a, v => Memory.entry a v
  | (b, w) :: rest, a, v =>
    if a < b then Memory.entry a v ++ (b, w) :: rest
    else if a = b then Memory.entry a v ++ rest
    else (b, w) :: Memory.put rest a v

/-- The canonical form of the entries at addresses from `lo` on. -/
def Memory.wfFrom : Nat → Memory → Bool
  | _, [] => true
  | lo, (a, w) :: rest =>
    decide (lo ≤ a) && decide (a < Config.memCells) && decide (w ≠ Config.unlistedCell) && Memory.wfFrom (a + 1) rest

/-- The canonical form: addresses strictly rising, all below 32768, no entry equal to an unlisted cell's content. -/
def Memory.wf (m : Memory) : Bool := Memory.wfFrom 0 m

/-- `MemRead(a, 1)` of 20_memory.md R32: no value above 32767; the address is never reduced (log 1). -/
def Memory.read (m : Memory) (a : Word) : Option Word :=
  if a.toNat < Config.memCells then some (m.get a.toNat) else none

/-- `MemWrite(a, 1, v)` of R32: no memory above 32767. -/
def Memory.write (m : Memory) (a v : Word) : Option Memory :=
  if a.toNat < Config.memCells then some (m.put a.toNat v) else none

/-- Words written to consecutive cells from address `a` on (46_host_interface.md R116: word k to `mem[a + k]`);
a word that would lie above 32767 is not written. -/
def Memory.putWords (m : Memory) (a : Nat) : List Word → Memory
  | [] => m
  | w :: ws => Memory.putWords (if a < Config.memCells then m.put a w else m) (a + 1) ws

/-- At most `n` words at consecutive addresses from `a` on, fewer where memory ends (20_memory.md R34). -/
def Memory.window (m : Memory) (a : Nat) : Nat → List Word
  | 0 => []
  | n + 1 => if a < Config.memCells then m.get a :: Memory.window m (a + 1) n else []

/-! ### Registers, instruction pointer, stack -/

/-- `reg[i]` (10_state.md R10). -/
def State.reg (s : State) (i : Fin 8) : Word := s.regs[i]

/-- `reg[i] <- v`. -/
def State.setReg (s : State) (i : Fin 8) (v : Word) : State := { s with regs := s.regs.set i v }

/-- `ip <- v`, a full 16-bit value, not checked (10_state.md R14). -/
def State.setIp (s : State) (v : Word) : State := { s with ip := v }

/-- `ip` after `n` fetches (R14: "Advanced by one after every fetch"). -/
def State.advance (s : State) (n : Nat) : State := { s with ip := s.ip + BitVec.ofNat 16 n }

/-- `stack.push(v)`: always succeeds (10_state.md R16; log 9). -/
def State.push (s : State) (v : Word) : State := { s with stack := v :: s.stack }

/-- `stack.pop()`: the top entry and the state without it, `none` on an empty stack (R16). -/
def State.pop (s : State) : Option (Word × State) :=
  match s.stack with
  | [] => none
  | v :: rest => some (v, { s with stack := rest })

/-- `stack.depth`, the derived quantity `sp` (10_state.md R17). -/
def State.sp (s : State) : Nat := s.stack.length

/-- The state with another memory. -/
def State.setMem (s : State) (m : Memory) : State := { s with mem := m }

/-! ### Streams -/

/-- `OutByte(b)`: the byte is appended to the output stream; it always succeeds (45_io.md R110; log 8). -/
def State.outByte (s : State) (b : Byte) : State := { s with output := s.output ++ [b] }

/-- `InByte()`: the next response, taken from the stream (45_io.md R112); `none` while the host has none ready. -/
def State.inByte (s : State) : Option (Response × State) :=
  match s.input with
  | [] => none
  | r :: rest => some (r, { s with input := rest })

/-! ### The load mark -/

/-- LoadImage has been called since Construct (46_host_interface.md R116; log 11). -/
def State.markLoaded (s : State) : State := { s with loaded := true }

/-! ### Status and faults -/

/-- `status <- Halted` (42_control_flow.md R95). -/
def State.halt (s : State) : State := { s with status := .halted }

/-- The state with status Failed(k). -/
def State.fail (s : State) (k : ErrorKind) : State := { s with status := .failed k }

/-- `raise K` (60_exceptions.md R133), all there is of trap entry: status becomes Failed(K) and nothing else changes.
The state given has its `ip` where the completed fetches left it (40 R70, R71; log 5). There is no return from a fault
(R134). -/
def raise (k : ErrorKind) (s : State) : Result := .next (s.fail k)

end Sys2Proof.Machine
end

