-- ==== Sys2Proof/Machine/Operands.lean ====
section
/-! DEFINITION. The two accessors of an Operand (spec/40_fetch_decode_dispatch.md R61, R62) and the common shape of the
handlers that write a register (30_encoding.md R50). -/

namespace Sys2Proof.Machine

/-- `resolve(op)` (R62): "for Literal(v) yields v; for RegisterRef(i) yields the current content of register i".
It never faults. -/
def State.resolve (s : State) : Operand → Word
  | .lit v => v
  | .reg i => s.reg i

/-- `regindex(op)` (R61): "valid only on RegisterRef; fails with `ExpectedRegisterOperand` when applied to a Literal". -/
def regIndex : Operand → Except ErrorKind (Fin 8)
  | .lit _ => .error .expectedRegisterOperand
  | .reg i => .ok i

/-- A handler whose operand `a` is in a `dst` position: its kind is checked directly after its fetch, when two words
have been fetched (40 R69, R71; log 4), and before anything is written. `s.ip` is the address of the opcode word. -/
def withDst (a : Operand) (s : State) (handler : Fin 8 → Result) : Result :=
  match regIndex a with
  | .error e => raise e (s.advance 2)
  | .ok d => handler d

end Sys2Proof.Machine
end

