-- ==== Sys2Proof/Machine/Flags.lean ====
section
/-! DEFINITION. "The core has no flags, condition codes or predicates" (spec/10_state.md R21, 41_alu.md R89). What stands
in their place: a comparison writes 1 or 0 as a word, and a conditional jump tests a word against 0. -/

namespace Sys2Proof.Machine

/-- `zext_16(if c then 1 else 0)` (41_alu.md R77, R78). -/
def conditionWord (c : Bool) : Word := if c then 1 else 0

/-- The condition of `jt` and `jf` (42_control_flow.md R91, R92): the whole 16-bit value is not 0. -/
def isTrue (w : Word) : Bool := decide (w ≠ 0)

end Sys2Proof.Machine
end

