-- ==== Sys2Proof/Machine/Alu.lean ====
section
/-! DEFINITION. Arithmetic, logic and comparison (spec/41_alu.md): set, eq, gt, add, mult, mod, and, or, not. In every
meaning `s.ip` is the address p of the opcode word; the fetches leave ip at p + 1 + arity (R75). -/

namespace Sys2Proof.Machine

/-- A number reduced modulo 32768 and held as a word (R79, R80). -/
def reduced (n : Nat) : Word := BitVec.ofNat 16 (n % Config.modulus)

/-- R79: the exact sum, reduced. -/
def addWords (x y : Word) : Word := reduced (x.toNat + y.toNat)

/-- R80: the exact product, reduced. -/
def multWords (x y : Word) : Word := reduced (x.toNat * y.toNat)

/-- R81: the remainder of the unsigned division, not reduced. -/
def modWords (x y : Word) : Word := BitVec.ofNat 16 (x.toNat % y.toNat)

/-- R82: bitwise AND of 16 bits. -/
def andWords (x y : Word) : Word := x &&& y

/-- R83: bitwise OR of 16 bits. -/
def orWords (x y : Word) : Word := x ||| y

/-- R84: XOR with 0x7FFF; bit 15 is kept. -/
def notWord (x : Word) : Word := x ^^^ 0x7FFF#16

/-- R77: equality of whole 16-bit values. -/
def eqWords (x y : Word) : Word := conditionWord (decide (x = y))

/-- R78: strict unsigned order of whole 16-bit values. -/
def gtWords (x y : Word) : Word := conditionWord (decide (x.toNat > y.toNat))

/-- `Operands2()` and the register write (R75). -/
def aluTwo (f : Word → Word) (a b : Operand) (s : State) : Result :=
  withDst a s fun d => .next ((s.advance 3).setReg d (f (s.resolve b)))

/-- `Operands3()` and the register write (R75). -/
def aluThree (f : Word → Word → Word) (a b c : Operand) (s : State) : Result :=
  withDst a s fun d => .next ((s.advance 4).setReg d (f (s.resolve b) (s.resolve c)))

/-- `set a, b` (R76): the value is copied whole. -/
def execSet (a b : Operand) (s : State) : Result := aluTwo (fun x => x) a b s

/-- `eq a, b, c` (R77). -/
def execEq (a b c : Operand) (s : State) : Result := aluThree eqWords a b c s

/-- `gt a, b, c` (R78). -/
def execGt (a b c : Operand) (s : State) : Result := aluThree gtWords a b c s

/-- `add a, b, c` (R79). -/
def execAdd (a b c : Operand) (s : State) : Result := aluThree addWords a b c s

/-- `mult a, b, c` (R80). -/
def execMult (a b c : Operand) (s : State) : Result := aluThree multWords a b c s

/-- `mod a, b, c` (R81): after all operands, `DivisionByZero` when the divisor resolves to 0 (R132; log 2). -/
def execMod (a b c : Operand) (s : State) : Result :=
  withDst a s fun d =>
    if s.resolve c = 0 then raise .divisionByZero (s.advance 4)
    else .next ((s.advance 4).setReg d (modWords (s.resolve b) (s.resolve c)))

/-- `and a, b, c` (R82). -/
def execAnd (a b c : Operand) (s : State) : Result := aluThree andWords a b c s

/-- `or a, b, c` (R83). -/
def execOr (a b c : Operand) (s : State) : Result := aluThree orWords a b c s

/-- `not a, b` (R84). -/
def execNot (a b : Operand) (s : State) : Result := aluTwo notWord a b s

end Sys2Proof.Machine
end

