-- ==== Sys2Proof/Machine/Control.lean ====
section
/-! DEFINITION. Control flow (spec/42_control_flow.md): jmp, jt, jf, call, ret, halt, noop. Every target is an absolute
word address, the whole 16-bit value, written unchecked (R97). -/

namespace Sys2Proof.Machine

/-- `jmp a` (R90). -/
def execJmp (a : Operand) (s : State) : Result := .next (s.setIp (s.resolve a))

/-- A conditional jump of three words: the target when `taken`, else the next instruction (R91, R92). -/
def jumpIf (taken : Bool) (target : Word) (s : State) : Result :=
  .next (if taken then s.setIp target else s.advance 3)

/-- `jt a, b` (R91): taken when a is not 0. -/
def execJt (a b : Operand) (s : State) : Result := jumpIf (isTrue (s.resolve a)) (s.resolve b) s

/-- `jf a, b` (R92): taken when a is 0. -/
def execJf (a b : Operand) (s : State) : Result := jumpIf (!isTrue (s.resolve a)) (s.resolve b) s

/-- `call a` (R93): pushes ip after the operand fetch, p + 2, then jumps. -/
def execCall (a : Operand) (s : State) : Result :=
  .next (((s.advance 2).push (s.advance 2).ip).setIp (s.resolve a))

/-- `ret` (R94): the popped word goes to ip, unchecked; on an empty stack `StackUnderflow` and ip stays p + 1. -/
def execRet (s : State) : Result :=
  match (s.advance 1).pop with
  | none => raise .stackUnderflow (s.advance 1)
  | some (t, s') => .next (s'.setIp t)

/-- `halt` (R95): the designed successful end, not a fault. -/
def execHalt (s : State) : Result := .next (s.advance 1).halt

/-- `noop` (R96). -/
def execNoop (s : State) : Result := .next (s.advance 1)

end Sys2Proof.Machine
end

