-- ==== Sys2Proof/Machine/Io.lean ====
section
/-! DEFINITION. Character output and input (spec/45_io.md): out, in. -/

namespace Sys2Proof.Machine

/-- The low byte of a word, bits 7..0 (R111). -/
def lowByte (w : Word) : Byte := w.setWidth 8

/-- `zext_16(b)` (R113): bits 15..8 are 0. -/
def byteWord (b : Byte) : Word := b.setWidth 16

/-- `out a` (R111): one byte, the low 8 bits of the resolved value. -/
def execOut (a : Operand) (s : State) : Result := .next ((s.advance 2).outByte (lowByte (s.resolve a)))

/-- `in a` (R112, R113): the kind of a is checked before any input is requested (log 6); then one response is taken.
Fail raises `InputReadFailure` and writes no register. While no response is ready the instruction waits: "The wait has
no timeout and changes no state; the machine is still Running and still at this `in`" (R112), so the step answers the
state it was given (log 16). -/
def execIn (a : Operand) (s : State) : Result :=
  withDst a s fun d =>
    match s.inByte with
    | none => .next s
    | some (.byte b, s') => .next ((s'.advance 2).setReg d (byteWord b))
    | some (.fail, s') => raise .inputReadFailure (s'.advance 2)

end Sys2Proof.Machine
end

