-- ==== Sys2Proof/Machine/MemoryAccess.lean ====
section
/-! DEFINITION. The memory instructions (spec/44_memory_access.md): rmem, wmem. An address operand is resolved and
nothing else: absolute or register indirect (R107). -/

namespace Sys2Proof.Machine

/-- `rmem a, b` (R105): the cell's 16 bits, not validated; no cell above 32767. -/
def execRmem (a b : Operand) (s : State) : Result :=
  withDst a s fun d =>
    match s.mem.read (s.resolve b) with
    | none => raise .memoryAddressOutOfRange (s.advance 3)
    | some v => .next ((s.advance 3).setReg d v)

/-- `wmem a, b` (R106): address first, value second, both resolved; the value's 16 bits, not validated. -/
def execWmem (a b : Operand) (s : State) : Result :=
  match s.mem.write (s.resolve a) (s.resolve b) with
  | none => raise .memoryAddressOutOfRange (s.advance 3)
  | some m => .next ((s.advance 3).setMem m)

end Sys2Proof.Machine
end

