-- ==== Sys2Proof/Machine/Stack.lean ====
section
/-! DEFINITION. The stack instructions (spec/43_stack.md): push, pop. -/

namespace Sys2Proof.Machine

/-- `push a` (R100): the resolved value, all 16 bits. -/
def execPush (a : Operand) (s : State) : Result := .next ((s.advance 2).push (s.resolve a))

/-- `pop a` (R101): the kind of a is checked before the stack; on an empty stack `StackUnderflow`. -/
def execPop (a : Operand) (s : State) : Result :=
  withDst a s fun d =>
    match (s.advance 2).pop with
    | none => raise .stackUnderflow (s.advance 2)
    | some (v, s') => .next (s'.setReg d v)

end Sys2Proof.Machine
end

