-- ==== Sys2Proof/Machine/Fetch.lean ====
section
/-! DEFINITION. Fetching an instruction (spec/40_fetch_decode_dispatch.md R64 to R72): the words at ip, the decoder over
them, and what the engine does with what it finds. The model reads the words the decoder may need at once; cells are
plain storage (20_memory.md R35), so reading a word the instruction does not have changes nothing (log 18). After it,
the spec's own `Fetch()` and prologues word for word, to which statements compare the step. -/

namespace Sys2Proof.Machine

/-- The words from ip on that an instruction may have: at most 4, and none above address 32767 (R64, 20 R34). -/
def State.window (s : State) : List Word := s.mem.window s.ip.toNat Config.maxInstrWords

/-- What the decoder reads at ip (R72: "it never decodes an instruction except at `ip`"). -/
def State.decoded (s : State) : Decoded := decode s.window

/-- One step of a Running machine (R65): the handler of the instruction read, or the fault that stopped the fetches,
with ip advanced past the words fetched by then (R70, R71; log 5). -/
def runDecoded (d : Decoded) (s : State) : Result :=
  match d with
  | .instr i => exec i s
  | .reject k n => raise k (s.advance n)

/-- The state in which the words given stand where the next step fetches: at ip where an instruction of `n` words
fits there, else at address 0 with ip there; the machine is Running, or no step would fetch (log 17). -/
def State.placeInstr (s : State) (n : Nat) (ws : List Word) : State :=
  let p : Word := if s.ip.toNat + n ≤ Config.memCells then s.ip else 0
  { s with status := .running, ip := p, mem := s.mem.putWords p.toNat ws }

/-- The number of words of the instruction whose opcode word comes first (R46). -/
def instrWordsOf : List Word → Nat
  | [] => 1
  | w :: _ => 1 + wordArity w

/-! ### The spec's own fetch, step by step -/

/-- `(w, op) <- Fetch(); k` (R64): reads the word at ip, advances ip by one, decodes the word, in this order. -/
def State.fetchThen (s : State) (k : Word → Operand → State → Result) : Result :=
  match s.mem.read s.ip with
  | none => raise .memoryAddressOutOfRange s
  | some w =>
    match decodeOperand w with
    | .error e => raise e (s.advance 1)
    | .ok op => k w op (s.advance 1)

/-- `(wa, opa) <- Fetch(); d <- regindex(opa); k` (41_alu.md R75). -/
def State.fetchDst (s : State) (k : Fin 8 → State → Result) : Result :=
  s.fetchThen fun _ op s =>
    match regIndex op with
    | .error e => raise e s
    | .ok d => k d s

/-- `(wa, opa) <- Fetch(); x <- resolve(opa); k` (41_alu.md R75). -/
def State.fetchVal (s : State) (k : Word → State → Result) : Result :=
  s.fetchThen fun _ op s => k (s.resolve op) s

/-- `(d, x) <- Operands2(); k` (41_alu.md R75). -/
def State.operands2 (s : State) (k : Fin 8 → Word → State → Result) : Result :=
  s.fetchDst fun d s => s.fetchVal fun x s => k d x s

/-- `(d, x, y) <- Operands3(); k` (41_alu.md R75). -/
def State.operands3 (s : State) (k : Fin 8 → Word → Word → State → Result) : Result :=
  s.fetchDst fun d s => s.fetchVal fun x s => s.fetchVal fun y s => k d x y s

end Sys2Proof.Machine
end

