-- ==== Sys2Proof/Machine/Step.lean ====
section
/-! DEFINITION. The step of the machine (spec/40_fetch_decode_dispatch.md R65). -/

namespace Sys2Proof.Machine

/-- One step. "The machine steps only while `status` = Running" (R65); Halted and Failed are absorbing (10_state.md R19,
60_exceptions.md R134, 46_host_interface.md R124): there the step answers the state it was given (log 12). -/
def step (s : State) : Host.Outcome State Fault Refusal :=
  match s.status with
  | .running => runDecoded s.decoded s
  | .halted => .next s
  | .failed _ => .next s

/-- The state in which the very next step fetches and runs the instruction of a table word (log 17). -/
def State.withFetchWord (s : State) (nbits w : Nat) : State :=
  s.placeInstr (instrWordsOf (tableWords nbits w)) (tableWords nbits w)

end Sys2Proof.Machine
end

