-- ==== Sys2Proof/Machine/HostInterface.lean ====
section
/-! DEFINITION. The operations the core exposes to its host (spec/46_host_interface.md): Construct is `State.reset`
(R115); LoadImage, Run and its outcome, the input stream, and the image file format (R120) are here. -/

namespace Sys2Proof.Machine

/-- The machine is as Construct left it, no image having been loaded, but for the responses the host has ready. -/
def State.fresh (s : State) : Bool := decide ({ s with input := [] } = State.reset)

/-- LoadImage (R116, R117): word k goes to `mem[k]`, unchecked, and nothing else of the spec's state changes. "n <= 32768
is a precondition and a longer image is refused"; "LoadImage is called at most once per Construct, before Run", whatever the
first image was, so a second or a late call is refused (93 U8; log 11). -/
def loadImage (image : List Word) (s : State) : Result :=
  if Config.imageMaxWords < image.length then .refused .imageTooLong
  else if s.fresh then .next (s.setMem (s.mem.putWords 0 image)).markLoaded
  else .refused .imageLoadedLate

/-- The host makes more responses of the input stream available (R122); the core's state is not touched. -/
def State.supply (s : State) (responses : List Response) : State := { s with input := s.input ++ responses }

/-- What Run returns (R119): success, or a specific error kind, and nothing else. -/
inductive RunOutcome where
  | halted
  | failed (k : ErrorKind)
  deriving DecidableEq, Repr

/-- The outcome of a machine that is no longer Running (R119). -/
def State.outcome (s : State) : Option RunOutcome :=
  match s.status with
  | .running => none
  | .halted => some .halted
  | .failed k => some (.failed k)

/-- The first `n` iterations of the loop of Run (40 R65, R118). -/
def runSteps : Nat → State → State
  | 0, s => s
  | n + 1, s =>
    match step s with
    | .next t => runSteps n t
    | .fault _ => s
    | .refused _ => s

/-- Run, started in `s`, ends in `t` and returns `o` (R118, R119). Run has no step limit: a machine that never leaves
Running is in this relation with nothing (R152). -/
def RunsTo (s : State) (o : RunOutcome) (t : State) : Prop := ∃ n, runSteps n s = t ∧ t.outcome = some o

/-! ### The image file (R120, 30_encoding.md R55), outside the core -/

/-- The file of an image: each word low byte first, the words in address order. -/
def imageBytes : List Word → List Byte
  | [] => []
  | w :: ws => BitVec.ofNat 8 (w.toNat % 256) :: BitVec.ofNat 8 (w.toNat / 256) :: imageBytes ws

/-- The image of a file; none for a file of odd length, on which the spec is silent (91 N6; log 11). -/
def imageOfBytes : List Byte → Option (List Word)
  | [] => some []
  | [_] => none
  | lo :: hi :: rest => (imageOfBytes rest).map fun ws => BitVec.ofNat 16 (lo.toNat + 256 * hi.toNat) :: ws

/-- Construct, then LoadImage from a file (70_reset_and_hazards.md R147): how a program comes to run (log 17). -/
def bootFile (file : List Byte) : Result :=
  match imageOfBytes file with
  | none => .refused .oddImageFile
  | some image => loadImage image State.reset

end Sys2Proof.Machine
end

