-- ==== Sys2Proof/Safety.lean ====
section
/-! DEFINITION. The terms claims use: what a step changes and keeps (the frame of an instruction, spec/00_scope.md R8),
which register an instruction may write (10_state.md R11), when the machine waits (45_io.md R112), and the invariant of
memory. -/

namespace Sys2Proof.Machine

/-- Every register reads as before. -/
def SameRegs (s t : State) : Prop := ∀ j : Fin 8, t.reg j = s.reg j

/-- Every register but `d` reads as before. -/
def SameRegsBut (d : Fin 8) (s t : State) : Prop := ∀ j : Fin 8, j ≠ d → t.reg j = s.reg j

/-- Every cell, read at every address, is as before. -/
def SameMem (s t : State) : Prop := ∀ a : Word, t.mem.read a = s.mem.read a

/-- Every cell but the one at address `a`, read at every other address, is as before. -/
def SameMemBut (a : Word) (s t : State) : Prop := ∀ b : Word, b ≠ a → t.mem.read b = s.mem.read b

/-- Both streams are as before. -/
def SameStreams (s t : State) : Prop := t.input = s.input ∧ t.output = s.output

/-- The frame of a register-writing instruction of `n` words: it writes register `d` and ip, and nothing else
(41_alu.md R75). -/
def WritesOnlyReg (d : Fin 8) (n : Nat) (s t : State) : Prop :=
  SameRegsBut d s t ∧ t.ip = s.ip + BitVec.ofNat 16 n ∧ t.stack = s.stack ∧ SameMem s t ∧ t.status = s.status ∧
    SameStreams s t

/-- The frame of an instruction that writes ip alone. -/
def WritesOnlyIp (s t : State) : Prop :=
  SameRegs s t ∧ t.stack = s.stack ∧ SameMem s t ∧ t.status = s.status ∧ SameStreams s t

/-- The state a fault leaves (60_exceptions.md R133, 40 R70): the status is Failed(k), and no register, cell, stack
entry or output byte has changed, and no response of the input has been consumed, but that `InputReadFailure` may have
taken the Fail response it reports (45_io.md R112; log 7). -/
def FaultFrame (k : ErrorKind) (s t : State) : Prop :=
  t.status = .failed k ∧ SameRegs s t ∧ t.stack = s.stack ∧ SameMem s t ∧ t.output = s.output ∧
    (t.input = s.input ∨ (k = .inputReadFailure ∧ s.input = .fail :: t.input))

/-- The machine is Running and the word at ip is the opcode word `n` (40 R65). -/
def OpcodeAt (n : Word) (s : State) : Prop := s.status = .running ∧ s.mem.read s.ip = some n

/-- With a Literal in its `dst` position the instruction raises `ExpectedRegisterOperand`: "always fails with
`ExpectedRegisterOperand` and performs no mutation" (41_alu.md R75, 60_exceptions.md R128). -/
def LiteralDstFaults (f : Operand → Instr) : Prop :=
  ∀ (v : Word) (s : State), ∃ t, exec (f (.lit v)) s = .next t ∧ FaultFrame .expectedRegisterOperand s t

/-- The register an instruction writes when it completes: "each writes exactly one register, the one its first operand
names" (10_state.md R11); none for the other ten. -/
def writtenReg : Instr → Option (Fin 8)
  | .set (.reg d) _ | .pop (.reg d) | .eq (.reg d) _ _ | .gt (.reg d) _ _ | .add (.reg d) _ _
  | .mult (.reg d) _ _ | .mod (.reg d) _ _ | .and (.reg d) _ _ | .or (.reg d) _ _ | .not (.reg d) _
  | .rmem (.reg d) _ | .inp (.reg d) => some d
  | .set (.lit _) _ | .pop (.lit _) | .eq (.lit _) _ _ | .gt (.lit _) _ _ | .add (.lit _) _ _
  | .mult (.lit _) _ _ | .mod (.lit _) _ _ | .and (.lit _) _ _ | .or (.lit _) _ _ | .not (.lit _) _
  | .rmem (.lit _) _ | .inp (.lit _) => none
  | .halt | .push _ | .jmp _ | .jt _ _ | .jf _ _ | .wmem _ _ | .call _ | .ret | .out _ | .noop => none

/-- The operand in the `dst` position, for the twelve instructions that have one (30_encoding.md R50). -/
def dstOperand : Instr → Option Operand
  | .set a _ | .pop a | .eq a _ _ | .gt a _ _ | .add a _ _ | .mult a _ _ | .mod a _ _ | .and a _ _ | .or a _ _
  | .not a _ | .rmem a _ | .inp a => some a
  | .halt | .push _ | .jmp _ | .jt _ _ | .jf _ _ | .wmem _ _ | .call _ | .ret | .out _ | .noop => none

/-- The machine waits: it is Running at an `in` with a register operand and no response stands ready (45_io.md R112,
70_reset_and_hazards.md R152: "no enabled step"; log 16). -/
def State.waiting (s : State) : Bool :=
  match s.status, s.decoded, s.input with
  | .running, .instr (.inp (.reg _)), [] => true
  | _, _, _ => false

/-- The invariant of the machine: its memory is in canonical form. -/
def State.Inv (s : State) : Prop := s.mem.wf = true

end Sys2Proof.Machine
end

