-- ==== Sys2Proof/Certificates/Slice0/Obligations.lean ====
section
/-! DEFINITION. The statements for the provers, from the numbered rules of spec/. Where a statement speaks of `exec i s`,
`s.ip` is the address p of the opcode word. The frames are those of Safety.lean. -/

open Sys2Proof Sys2Proof.Machine

/-! ### Encoding and decoding -/

/-- R60: "For all words w in 0..32767, decoding yields Literal(w); for w in 32768..32775, decoding yields
RegisterRef(w−32768); for w ≥32776, decoding fails with `InvalidInstructionValue`." -/
def Obligations.OperandWordsFallInThreeRanges : Prop :=
  ∀ w : Word,
    (w.toNat ≤ 32767 → decodeOperand w = .ok (.lit w)) ∧
    (∀ i : Fin 8, w.toNat = 32768 + i.val → decodeOperand w = .ok (.reg i)) ∧
    (32776 ≤ w.toNat → decodeOperand w = .error .invalidInstructionValue)

/-- R61, R62: the two accessors of an Operand. `regindex` fails on a Literal and does not read the register;
`resolve` never faults. -/
def Obligations.RegIndexAndResolveReadAnOperand : Prop :=
  (∀ i : Fin 8, regIndex (.reg i) = .ok i) ∧
  (∀ v : Word, regIndex (.lit v) = .error .expectedRegisterOperand) ∧
  (∀ (s : State) (v : Word), s.resolve (.lit v) = v) ∧
  (∀ (s : State) (i : Fin 8), s.resolve (.reg i) = s.reg i)

/-- 30_encoding.md: decoding the words of a legal instruction, whatever words follow it, gives it back. -/
def Obligations.DecodeOfEncodeIsTheInstruction : Prop :=
  ∀ (i : Instr) (rest : List Word), i.wf = true → decode (encode i ++ rest) = .instr i

/-- 30_encoding.md: the words an instruction is decoded from begin with exactly its own encoding, so no two encodings
stand for one instruction and no bit of an instruction's words is ignored. -/
def Obligations.DecodedWordsBeginWithTheEncoding : Prop :=
  ∀ (ws : List Word) (i : Instr), decode ws = .instr i → ∃ rest, ws = encode i ++ rest

/-- Words written out from the rows of R49 and the operand words of R47 (sources: 95_test_vectors.md V-A2, V-A24, P1,
V-M10, S8, V-I3; 41 R76). -/
def Obligations.SpecWordsDecodeToTheirInstructions : Prop :=
  decode [9, 32768, 4, 5] = .instr (.add (.reg 0) (.lit 4) (.lit 5)) ∧
  decode [11, 32768, 5, 0] = .instr (.mod (.reg 0) (.lit 5) (.lit 0)) ∧
  decode [1, 32768, 32769] = .instr (.set (.reg 0) (.reg 1)) ∧
  decode [7, 32768, 6] = .instr (.jt (.reg 0) (.lit 6)) ∧
  decode [16, 32768, 5] = .instr (.wmem (.reg 0) (.lit 5)) ∧
  decode [19, 65, 0] = .instr (.out (.lit 65)) ∧
  decode [20, 32769] = .instr (.inp (.reg 1)) ∧
  decode [18] = .instr .ret

/-- R46: "Lengths by opcode: 1 word for `halt`, `ret`, `noop`; 2 words for `push`, `pop`, `jmp`, `call`, `out`, `in`;
3 words for `set`, `jt`, `jf`, `not`, `rmem`, `wmem`; 4 words for `eq`, `gt`, `add`, `mult`, `mod`, `and`, `or`", whatever the
operand words are; and it is 1 + the arity of the opcode word. -/
def Obligations.LengthIsFixedByTheOpcodeWord : Prop :=
  ∀ (w : Word) (rest : List Word) (i : Instr), decode (w :: rest) = .instr i →
    (encode i).length = 1 + wordArity w ∧
    ((w.toNat ∈ [0, 18, 21] ∧ (encode i).length = 1) ∨
    (w.toNat ∈ [2, 3, 6, 17, 19, 20] ∧ (encode i).length = 2) ∨
    (w.toNat ∈ [1, 7, 8, 14, 15, 16] ∧ (encode i).length = 3) ∨
    (w.toNat ∈ [4, 5, 9, 10, 11, 12, 13] ∧ (encode i).length = 4))

/-! ### The step -/

/-- 40_fetch_decode_dispatch.md section 3: a step of a Running machine runs exactly the instruction its decoder reads at ip,
legal or with a Literal in its `dst` position, in the state as it is (the meaning itself advances ip past the words). -/
def Obligations.StepRunsTheDecodedInstruction : Prop :=
  ∀ (s : State) (i : Instr), s.status = .running → decode s.window = .instr i → step s = exec i s

/-- 40_fetch_decode_dispatch.md section 3 (R65, R73), for a Running machine: a step answers a next state. A fault of the spec
is one too (the model's choice, log 14), and the step refuses nothing. That the step also answers a next state, the same one,
while the machine waits for input (log 16) and once it is Halted or Failed, where the spec has no step (log 12), is the
model's choice. -/
def Obligations.EveryStepAnswersANextState : Prop :=
  ∀ s : State, ∃ t, step s = .next t

/-- 40 section 2 and 3 (R64 to R67), with the spec's decisions D1 and D3: what a step does where the opcode word cannot be
fetched, does not decode, or is no opcode. -/
def Obligations.OpcodeFetchFaultsInOrder : Prop :=
  ∀ s : State, s.status = .running →
    (32768 ≤ s.ip.toNat → step s = .next (s.fail .memoryAddressOutOfRange)) ∧
    (∀ w : Word, s.mem.read s.ip = some w →
      (32776 ≤ w.toNat → step s = .next ((s.advance 1).fail .invalidInstructionValue)) ∧
      (22 ≤ w.toNat → w.toNat ≤ 32775 → step s = .next ((s.advance 1).fail .invalidOpCode)) ∧
      (w.toNat ≤ 21 → ∃ shape, opcodeRow w.toNat = some shape ∧
        step s = runDecoded (shape.read (s.mem.window (s.ip.toNat + 1) 3)) s))

/-- R129: "`InvalidOpCode` is raised by dispatch when the raw opcode word is not 0..21 and did not already fail to decode,
that is for 22..32775 (30_encoding.md rule R51). No operand is fetched: `ip` has advanced by one only." It is raised
then and in no other step. -/
def Obligations.InvalidOpCodeExactlyForUnusedCodes : Prop :=
  ∀ (s t : State), s.status = .running → step s = .next t →
    (t.status = .failed .invalidOpCode ↔ ∃ w : Word, s.mem.read s.ip = some w ∧ 22 ≤ w.toNat ∧ w.toNat ≤ 32775) ∧
    (t.status = .failed .invalidOpCode → t.ip = s.ip + 1 ∧ FaultFrame .invalidOpCode s t)

/-- 41_alu.md section 1 and 2: the step of each arithmetic, logic and comparison instruction is its pseudocode, over the
spec's own `Fetch()`, `regindex` and `resolve` in the spec's order (the order of checks and ip after a fault are the
spec's decisions D4 and D5; the out-of-range and divisor faults D1 and D2; logs 1, 2, 4, 5). -/
def Obligations.AluStepsFollowTheirPseudocode : Prop :=
  ∀ s : State,
    (OpcodeAt 1 s → step s = (s.advance 1).operands2 fun d x s => .next (s.setReg d x)) ∧
    (OpcodeAt 4 s → step s = (s.advance 1).operands3 fun d x y s => .next (s.setReg d (if x = y then 1 else 0))) ∧
    (OpcodeAt 5 s → step s = (s.advance 1).operands3 fun d x y s =>
      .next (s.setReg d (if x.toNat > y.toNat then 1 else 0))) ∧
    (OpcodeAt 9 s → step s = (s.advance 1).operands3 fun d x y s =>
      .next (s.setReg d (BitVec.ofNat 16 ((x.toNat + y.toNat) % 32768)))) ∧
    (OpcodeAt 10 s → step s = (s.advance 1).operands3 fun d x y s =>
      .next (s.setReg d (BitVec.ofNat 16 ((x.toNat * y.toNat) % 32768)))) ∧
    (OpcodeAt 11 s → step s = (s.advance 1).operands3 fun d x y s =>
      if y = 0 then raise .divisionByZero s else .next (s.setReg d (BitVec.ofNat 16 (x.toNat % y.toNat)))) ∧
    (OpcodeAt 12 s → step s = (s.advance 1).operands3 fun d x y s => .next (s.setReg d (x &&& y))) ∧
    (OpcodeAt 13 s → step s = (s.advance 1).operands3 fun d x y s => .next (s.setReg d (x ||| y))) ∧
    (OpcodeAt 14 s → step s = (s.advance 1).operands2 fun d x s => .next (s.setReg d (x ^^^ 0x7FFF#16)))

/-- 42_control_flow.md sections 1 to 3: the step of each control-flow instruction is its pseudocode (`s₀` is the state at the
opcode fetch; the fetch faults rest on D1 and D5, logs 1 and 5). -/
def Obligations.ControlStepsFollowTheirPseudocode : Prop :=
  ∀ s₀ : State,
    (OpcodeAt 0 s₀ → step s₀ = .next { s₀.advance 1 with status := .halted }) ∧
    (OpcodeAt 6 s₀ → step s₀ = (s₀.advance 1).fetchVal fun t s => .next (s.setIp t)) ∧
    (OpcodeAt 7 s₀ → step s₀ = (s₀.advance 1).fetchVal fun c s => s.fetchVal fun t s =>
      if c ≠ 0 then .next (s.setIp t) else .next s) ∧
    (OpcodeAt 8 s₀ → step s₀ = (s₀.advance 1).fetchVal fun c s => s.fetchVal fun t s =>
      if c = 0 then .next (s.setIp t) else .next s) ∧
    (OpcodeAt 17 s₀ → step s₀ = (s₀.advance 1).fetchVal fun t s => .next ((s.push s.ip).setIp t)) ∧
    (OpcodeAt 18 s₀ → step s₀ =
      match s₀.stack with
      | [] => raise .stackUnderflow (s₀.advance 1)
      | t :: rest => .next (State.setIp { s₀.advance 1 with stack := rest } t)) ∧
    (OpcodeAt 21 s₀ → step s₀ = .next (s₀.advance 1))

/-- 43_stack.md and 44_memory_access.md: the step of `push`, `pop`, `rmem` and `wmem` is its pseudocode (D1, D4, D5: logs 1,
4, 5). -/
def Obligations.StackAndMemoryStepsFollowTheirPseudocode : Prop :=
  ∀ s₀ : State,
    (OpcodeAt 2 s₀ → step s₀ = (s₀.advance 1).fetchVal fun x s => .next (s.push x)) ∧
    (OpcodeAt 3 s₀ → step s₀ = (s₀.advance 1).fetchDst fun d s =>
      match s.stack with
      | [] => raise .stackUnderflow s
      | v :: rest => .next (State.setReg { s with stack := rest } d v)) ∧
    (OpcodeAt 15 s₀ → step s₀ = (s₀.advance 1).operands2 fun d addr s =>
      match s.mem.read addr with
      | none => raise .memoryAddressOutOfRange s
      | some v => .next (s.setReg d v)) ∧
    (OpcodeAt 16 s₀ → step s₀ = (s₀.advance 1).fetchVal fun addr s => s.fetchVal fun v s =>
      match s.mem.write addr v with
      | none => raise .memoryAddressOutOfRange s
      | some m => .next (s.setMem m))

/-- 45_io.md: the step of `out` and `in` is its pseudocode; where no response stands ready the step of `in` answers the
state it was given, the model's way to write a wait (log 16); D1, D5, D6, D8: logs 1, 5, 6, 8. -/
def Obligations.IoStepsFollowTheirPseudocode : Prop :=
  ∀ s₀ : State,
    (OpcodeAt 19 s₀ → step s₀ = (s₀.advance 1).fetchVal fun x s =>
      .next { s with output := s.output ++ [BitVec.ofNat 8 (x.toNat % 256)] }) ∧
    (OpcodeAt 20 s₀ → step s₀ = (s₀.advance 1).fetchDst fun d s =>
      match s.input with
      | [] => .next s₀
      | .byte b :: rest => .next (State.setReg { s with input := rest } d (BitVec.ofNat 16 b.toNat))
      | .fail :: rest => raise .inputReadFailure { s with input := rest })

/-! ### What each instruction does: its result, its frame, where it faults -/

/-- R76: "register[a] := resolve(b)", "copied whole, all 16 bits, with no reduction". -/
def Obligations.SetCopiesTheWholeValue : Prop :=
  (∀ a b, encode (.set a b) = [1, a.word, b.word]) ∧
  (∀ (d : Fin 8) (b : Operand) (s : State), ∃ t, exec (.set (.reg d) b) s = .next t ∧
    t.reg d = s.resolve b ∧ WritesOnlyReg d 3 s t) ∧
  (∀ b, LiteralDstFaults fun a => .set a b)

/-- R77, R78: 1 or 0; equality and strict unsigned order of the whole 16-bit values. -/
def Obligations.EqAndGtWriteOneOrZero : Prop :=
  (∀ a b c, encode (.eq a b c) = [4, a.word, b.word, c.word] ∧ encode (.gt a b c) = [5, a.word, b.word, c.word]) ∧
  (∀ (d : Fin 8) (b c : Operand) (s : State), ∃ t, exec (.eq (.reg d) b c) s = .next t ∧
    t.reg d = (if (s.resolve b).toNat = (s.resolve c).toNat then 1 else 0) ∧ WritesOnlyReg d 4 s t) ∧
  (∀ (d : Fin 8) (b c : Operand) (s : State), ∃ t, exec (.gt (.reg d) b c) s = .next t ∧
    t.reg d = (if (s.resolve c).toNat < (s.resolve b).toNat then 1 else 0) ∧ WritesOnlyReg d 4 s t) ∧
  (∀ b c, LiteralDstFaults (fun a => .eq a b c) ∧ LiteralDstFaults fun a => .gt a b c)

/-- R79: the exact sum modulo 32768, with register operands above 32767 too; overflow is no exception; commutative. -/
def Obligations.AddIsTheExactSumReduced : Prop :=
  (∀ a b c, encode (.add a b c) = [9, a.word, b.word, c.word]) ∧
  (∀ (d : Fin 8) (b c : Operand) (s : State), ∃ t, exec (.add (.reg d) b c) s = .next t ∧
    (t.reg d).toNat = ((s.resolve b).toNat + (s.resolve c).toNat) % 32768 ∧ WritesOnlyReg d 4 s t) ∧
  (∀ (d : Fin 8) (b c : Operand) (s : State), exec (.add (.reg d) b c) s = exec (.add (.reg d) c b) s) ∧
  (∀ b c, LiteralDstFaults fun a => .add a b c)

/-- R80: the exact product modulo 32768; overflow is no exception; commutative. -/
def Obligations.MultIsTheExactProductReduced : Prop :=
  (∀ a b c, encode (.mult a b c) = [10, a.word, b.word, c.word]) ∧
  (∀ (d : Fin 8) (b c : Operand) (s : State), ∃ t, exec (.mult (.reg d) b c) s = .next t ∧
    (t.reg d).toNat = ((s.resolve b).toNat * (s.resolve c).toNat) % 32768 ∧ WritesOnlyReg d 4 s t) ∧
  (∀ (d : Fin 8) (b c : Operand) (s : State), exec (.mult (.reg d) b c) s = exec (.mult (.reg d) c b) s) ∧
  (∀ b c, LiteralDstFaults fun a => .mult a b c)

/-- 41_alu.md section 2, `mod`: the unsigned remainder, not reduced; where the divisor resolves to 0 the spec's decision
D2 makes it the fault `DivisionByZero` (log 2). -/
def Obligations.ModIsTheRemainderOrDivisionByZero : Prop :=
  (∀ a b c, encode (.mod a b c) = [11, a.word, b.word, c.word]) ∧
  (∀ (d : Fin 8) (b c : Operand) (s : State), s.resolve c ≠ 0 → ∃ t, exec (.mod (.reg d) b c) s = .next t ∧
    (t.reg d).toNat = (s.resolve b).toNat % (s.resolve c).toNat ∧ WritesOnlyReg d 4 s t) ∧
  (∀ (d : Fin 8) (b c : Operand) (s : State), s.resolve c = 0 → ∃ t, exec (.mod (.reg d) b c) s = .next t ∧
    FaultFrame .divisionByZero s t) ∧
  (∀ b c, LiteralDstFaults fun a => .mod a b c)

/-- R82, R83: "each of the 16 result bits is 1 exactly when the same bit of both values is 1", "of either value is 1"; no
reduction. -/
def Obligations.AndAndOrWorkBitByBit : Prop :=
  (∀ a b c, encode (.and a b c) = [12, a.word, b.word, c.word] ∧ encode (.or a b c) = [13, a.word, b.word, c.word]) ∧
  (∀ (d : Fin 8) (b c : Operand) (s : State), ∃ t, exec (.and (.reg d) b c) s = .next t ∧
    (∀ k, k < 16 → (t.reg d).getLsbD k = ((s.resolve b).getLsbD k && (s.resolve c).getLsbD k)) ∧
    WritesOnlyReg d 4 s t) ∧
  (∀ (d : Fin 8) (b c : Operand) (s : State), ∃ t, exec (.or (.reg d) b c) s = .next t ∧
    (∀ k, k < 16 → (t.reg d).getLsbD k = ((s.resolve b).getLsbD k || (s.resolve c).getLsbD k)) ∧
    WritesOnlyReg d 4 s t) ∧
  (∀ b c, LiteralDstFaults (fun a => .and a b c) ∧ LiteralDstFaults fun a => .or a b c)

/-- R84: "bits 14..0 of the value are inverted and bit 15 is copied unchanged"; as numbers, 32767 - v for v up to 32767 and
98303 - v above; applied twice it is the identity. -/
def Obligations.NotInvertsFifteenBits : Prop :=
  (∀ a b, encode (.not a b) = [14, a.word, b.word]) ∧
  (∀ (d : Fin 8) (b : Operand) (s : State), ∃ t, exec (.not (.reg d) b) s = .next t ∧
    (∀ k, k < 15 → (t.reg d).getLsbD k = !(s.resolve b).getLsbD k) ∧
    (t.reg d).getLsbD 15 = (s.resolve b).getLsbD 15 ∧
    (t.reg d).toNat =
      (if (s.resolve b).toNat ≤ 32767 then 32767 - (s.resolve b).toNat else 98303 - (s.resolve b).toNat) ∧
    WritesOnlyReg d 3 s t) ∧
  (∀ (d : Fin 8) (s : State), ∃ t u, exec (.not (.reg d) (.reg d)) s = .next t ∧
    exec (.not (.reg d) (.reg d)) t = .next u ∧ u.reg d = s.reg d) ∧
  (∀ b, LiteralDstFaults fun a => .not a b)

/-- R100: "The resolved value becomes the new top entry, all 16 bits, unreduced." A push always succeeds. -/
def Obligations.PushAddsTheTopEntry : Prop :=
  (∀ a, encode (.push a) = [2, a.word]) ∧
  ∀ (a : Operand) (s : State), ∃ t, exec (.push a) s = .next t ∧
    t.stack = s.resolve a :: s.stack ∧ t.ip = s.ip + 2 ∧
    SameRegs s t ∧ SameMem s t ∧ t.status = s.status ∧ SameStreams s t

/-- R101: "The top entry is removed and written whole to the register"; on an empty stack `StackUnderflow`, with no register
changed; a Literal operand faults first, and the stack is not popped. -/
def Obligations.PopMovesTheTopEntry : Prop :=
  (∀ a, encode (.pop a) = [3, a.word]) ∧
  (∀ (d : Fin 8) (s : State) (v : Word) (rest : List Word), s.stack = v :: rest → ∃ t, exec (.pop (.reg d)) s = .next t ∧
    t.reg d = v ∧ t.stack = rest ∧ t.ip = s.ip + 2 ∧
    SameRegsBut d s t ∧ SameMem s t ∧ t.status = s.status ∧ SameStreams s t) ∧
  (∀ (d : Fin 8) (s : State), s.stack = [] → ∃ t, exec (.pop (.reg d)) s = .next t ∧
    FaultFrame .stackUnderflow s t) ∧
  LiteralDstFaults .pop

/-- 44_memory_access.md section of `rmem`: "register[a] := memory[resolve(b)]", the 16 bits unchanged; above 32767 the
spec's decision D1 (log 1). -/
def Obligations.RmemLoadsTheWholeCell : Prop :=
  (∀ a b, encode (.rmem a b) = [15, a.word, b.word]) ∧
  (∀ (d : Fin 8) (b : Operand) (s : State), (s.resolve b).toNat ≤ 32767 → ∃ t, exec (.rmem (.reg d) b) s = .next t ∧
    s.mem.read (s.resolve b) = some (t.reg d) ∧ WritesOnlyReg d 3 s t) ∧
  (∀ (d : Fin 8) (b : Operand) (s : State), 32768 ≤ (s.resolve b).toNat → ∃ t, exec (.rmem (.reg d) b) s = .next t ∧
    FaultFrame .memoryAddressOutOfRange s t) ∧
  (∀ b, LiteralDstFaults fun a => .rmem a b)

/-- 44_memory_access.md section of `wmem`: "memory[resolve(a)] := resolve(b)", address first, the 16 bits unchanged, every
other cell as before; above 32767 the spec's decision D1 (log 1). The premise is the memory invariant. -/
def Obligations.WmemStoresAtTheResolvedAddress : Prop :=
  (∀ a b, encode (.wmem a b) = [16, a.word, b.word]) ∧
  (∀ (a b : Operand) (s : State), s.Inv → (s.resolve a).toNat ≤ 32767 → ∃ t, exec (.wmem a b) s = .next t ∧
    t.mem.read (s.resolve a) = some (s.resolve b) ∧ SameMemBut (s.resolve a) s t ∧
    t.ip = s.ip + 3 ∧ SameRegs s t ∧ t.stack = s.stack ∧ t.status = s.status ∧ SameStreams s t) ∧
  (∀ (a b : Operand) (s : State), 32768 ≤ (s.resolve a).toNat → ∃ t, exec (.wmem a b) s = .next t ∧
    FaultFrame .memoryAddressOutOfRange s t)

/-- R90: "instruction_pointer := resolve(a)", absolute, unchecked; nothing but ip is written. -/
def Obligations.JmpGoesToTheResolvedAddress : Prop :=
  (∀ a, encode (.jmp a) = [6, a.word]) ∧
  ∀ (a : Operand) (s : State), ∃ t, exec (.jmp a) s = .next t ∧ t.ip = s.resolve a ∧ WritesOnlyIp s t

/-- R91, R92: the condition is the whole 16-bit value against 0; else the instruction falls through to p + 3. -/
def Obligations.JtAndJfTestTheWholeValue : Prop :=
  (∀ a b, encode (.jt a b) = [7, a.word, b.word] ∧ encode (.jf a b) = [8, a.word, b.word]) ∧
  (∀ (a b : Operand) (s : State), ∃ t, exec (.jt a b) s = .next t ∧ WritesOnlyIp s t ∧
    t.ip = (if (s.resolve a).toNat = 0 then s.ip + 3 else s.resolve b)) ∧
  (∀ (a b : Operand) (s : State), ∃ t, exec (.jf a b) s = .next t ∧ WritesOnlyIp s t ∧
    t.ip = (if (s.resolve a).toNat = 0 then s.resolve b else s.ip + 3))

/-- R93: "The value pushed is `ip` after the operand fetch, that is p + 2", then ip is the resolved target. -/
def Obligations.CallPushesTheFollowingAddress : Prop :=
  (∀ a, encode (.call a) = [17, a.word]) ∧
  ∀ (a : Operand) (s : State), ∃ t, exec (.call a) s = .next t ∧
    t.stack = (s.ip + 2) :: s.stack ∧ t.ip = s.resolve a ∧
    SameRegs s t ∧ SameMem s t ∧ t.status = s.status ∧ SameStreams s t

/-- R94: the top entry is removed and written to ip, all 16 bits, unchecked; on an empty stack `StackUnderflow`, with no
register changed. -/
def Obligations.RetPopsIntoTheInstructionPointer : Prop :=
  encode .ret = [18] ∧
  (∀ (s : State) (v : Word) (rest : List Word), s.stack = v :: rest → ∃ t, exec .ret s = .next t ∧
    t.ip = v ∧ t.stack = rest ∧ SameRegs s t ∧ SameMem s t ∧ t.status = s.status ∧ SameStreams s t) ∧
  (∀ s : State, s.stack = [] → ∃ t, exec .ret s = .next t ∧ FaultFrame .stackUnderflow s t)

/-- 42_control_flow.md section of `halt` (R95): the status becomes Halted, ip is p + 1, everything else keeps its value, and no
later step changes anything (the model's way to write "takes no further step", log 12). -/
def Obligations.HaltStopsTheMachine : Prop :=
  encode .halt = [0] ∧
  ∀ s : State, ∃ t, exec .halt s = .next t ∧ t.status = .halted ∧ t.ip = s.ip + 1 ∧
    SameRegs s t ∧ t.stack = s.stack ∧ SameMem s t ∧ SameStreams s t ∧ ∀ n, runSteps n t = t

/-- R96: "Reads: nothing. Writes: nothing; `ip` is left at p + 1 by the opcode fetch." It is the single word [21]. -/
def Obligations.NoopOnlyAdvances : Prop :=
  encode .noop = [21] ∧ decode [21] = .instr .noop ∧
  ∀ s : State, ∃ t, exec .noop s = .next t ∧ t.ip = s.ip + 1 ∧ WritesOnlyIp s t

/-- R111: "The byte is bits 7..0 of the resolved value; bits 15..8 are discarded without error." It is appended to the
output stream. -/
def Obligations.OutEmitsTheLowByte : Prop :=
  (∀ a, encode (.out a) = [19, a.word]) ∧
  ∀ (a : Operand) (s : State), ∃ t, exec (.out a) s = .next t ∧
    (∃ b : Byte, b.toNat = (s.resolve a).toNat % 256 ∧ t.output = s.output ++ [b]) ∧ t.ip = s.ip + 2 ∧
    SameRegs s t ∧ t.stack = s.stack ∧ SameMem s t ∧ t.status = s.status ∧ t.input = s.input

/-- 45_io.md section of `in`: one byte, zero extended, taken from the stream; `InputReadFailure` on Fail, which is taken
(log 7), with no register written; a Literal operand faults with nothing consumed (D6, log 6); with no response ready nothing
changes (log 16). -/
def Obligations.InReadsOneByte : Prop :=
  (∀ a, encode (.inp a) = [20, a.word]) ∧
  (∀ (d : Fin 8) (s : State) (b : Byte) (rest : List Response), s.input = .byte b :: rest →
    ∃ t, exec (.inp (.reg d)) s = .next t ∧ (t.reg d).toNat = b.toNat ∧ t.input = rest ∧ t.ip = s.ip + 2 ∧
      SameRegsBut d s t ∧ t.stack = s.stack ∧ SameMem s t ∧ t.status = s.status ∧ t.output = s.output) ∧
  (∀ (d : Fin 8) (s : State) (rest : List Response), s.input = .fail :: rest →
    ∃ t, exec (.inp (.reg d)) s = .next t ∧ FaultFrame .inputReadFailure s t ∧ t.input = rest) ∧
  (∀ (d : Fin 8) (s : State), s.input = [] → exec (.inp (.reg d)) s = .next s) ∧
  (∀ (v : Word) (s : State), ∃ t, exec (.inp (.lit v)) s = .next t ∧
    FaultFrame .expectedRegisterOperand s t ∧ t.input = s.input)

/-! ### Reset and the invariant -/

/-- R24, R26: "After reset every memory cell `mem[0..32767]` is 0", cells the image does not cover keep 0, and execution that
reaches such a cell halts; "After reset `ip` = 0 and `status` = Running". -/
def Obligations.ResetClearsMemoryAndStartsAtZero : Prop :=
  (∀ a : Word, a.toNat ≤ 32767 → State.reset.mem.read a = some 0) ∧
  (∀ (ws : List Word) (t : State) (a : Word), loadImage ws State.reset = .next t → ws.length ≤ a.toNat → a.toNat ≤ 32767 →
    t.mem.read a = some 0) ∧
  (∀ s : State, s.status = .running → s.mem.read s.ip = some 0 → ∃ t, step s = .next t ∧ t.status = .halted) ∧
  State.reset.ip = 0 ∧ State.reset.status = .running

/-- 10_state.md section 8: registers 0 and stack empty at reset are the spec's decision D10 (log 10), and nothing has been
emitted (R28); that no response stands ready at reset is the model's choice (log 15), and the mark that no image has been
loaded is the model's own (log 11). -/
def Obligations.ResetClearsRegistersStackAndStreams : Prop :=
  (∀ i : Fin 8, State.reset.reg i = 0) ∧ State.reset.stack = [] ∧ State.reset.sp = 0 ∧
  State.reset.output = [] ∧ State.reset.input = [] ∧ State.reset.loaded = false

/-- The invariant holds at reset: the memory of the reset state is in canonical form. -/
def Obligations.ResetMemoryIsCanonical : Prop := State.reset.Inv

/-- The invariant is kept by every step: addresses strictly rising, all below 32768 (20_memory.md R30), no entry equal to
what an unlisted cell reads as. -/
def Obligations.EveryStepKeepsMemoryCanonical : Prop :=
  ∀ s t : State, s.Inv → step s = .next t → t.Inv

/-! ### The whole machine -/

/-- 10_state.md R19, 60_exceptions.md R134, 46_host_interface.md R124 (D12): once the status is not Running no state changes,
however many steps are taken; calling Run again returns the same outcome. The model writes "takes no further step" as
a step that answers the same state (log 12). -/
def Obligations.TerminalStatesNeverChange : Prop :=
  ∀ (s : State) (n : Nat), s.status ≠ .running → step s = .next s ∧ runSteps n s = s

/-- 46_host_interface.md section 1 and 70_reset_and_hazards.md section 5: the outcome of Run and the final state are
determined by the state it starts in. -/
def Obligations.RunHasOneOutcome : Prop :=
  ∀ (s t u : State) (o p : RunOutcome), RunsTo s o t → RunsTo s p u → o = p ∧ t = u

/-- 10_state.md section 5: the status leaves Running for Halted only by `halt`, and otherwise only for Failed. -/
def Obligations.OnlyHaltEndsSuccessfully : Prop :=
  ∀ s t : State, s.status = .running → step s = .next t →
    t.status = .running ∨ (t.status = .halted ∧ s.decoded = .instr .halt) ∨ ∃ k, t.status = .failed k

/-- 10_state.md section 1: an instruction changes at most the one register its destination operand names; the ten
instructions without one change none. -/
def Obligations.OnlyTheDestinationRegisterChanges : Prop :=
  ∀ (i : Instr) (s t : State) (j : Fin 8), exec i s = .next t → writtenReg i ≠ some j → t.reg j = s.reg j

/-- 20_memory.md section 6: memory is written by `wmem` and image loading only, and read (beside instruction fetch) by
`rmem` only: any other instruction does the same whatever memory holds. Loading also sets the model's own load mark (log 11). -/
def Obligations.MemoryIsTouchedByRmemWmemAndLoadingOnly : Prop :=
  (∀ (i : Instr) (s t : State), (∀ a b, i ≠ .wmem a b) → exec i s = .next t → t.mem = s.mem) ∧
  (∀ (i : Instr) (s t : State) (m : Memory), (∀ a b, i ≠ .wmem a b) → (∀ a b, i ≠ .rmem a b) → exec i s = .next t →
    exec i (s.setMem m) = .next (t.setMem m)) ∧
  (∀ (ws : List Word) (s t : State), loadImage ws s = .next t → t = (s.setMem t.mem).markLoaded)

/-- 10_state.md section 3 and 43_stack.md: the stack grows by one entry by `push` and `call`, shrinks by one by `pop` and `ret`
that do not fault, and is otherwise unchanged. -/
def Obligations.StackMovesByOneEntry : Prop :=
  ∀ (i : Instr) (s t : State), s.status = .running → exec i s = .next t →
    (((∃ a, i = .push a) ∨ (∃ a, i = .call a)) ∧ ∃ v, t.stack = v :: s.stack) ∨
    (((∃ d, i = .pop (.reg d)) ∨ i = .ret) ∧ t.status = .running ∧ ∃ v, s.stack = v :: t.stack) ∨
    (t.stack = s.stack ∧ ((∀ a, i ≠ .push a) ∧ (∀ a, i ≠ .call a)) ∧
      ((∀ d, i ≠ .pop (.reg d)) ∧ i ≠ .ret ∨ t.status = .failed .stackUnderflow))

/-- 43_stack.md: "Only the top entry can be read; there is no instruction that reads an entry below the top, reads the depth":
entries put below the stack change nothing of what an instruction does, where the stack is not empty or the instruction
takes no entry. -/
def Obligations.DeeperStackEntriesAreInvisible : Prop :=
  ∀ (i : Instr) (s t : State) (below : List Word), (s.stack ≠ [] ∨ ((∀ a, i ≠ .pop a) ∧ i ≠ .ret)) → exec i s = .next t →
    exec i { s with stack := s.stack ++ below } = .next { t with stack := t.stack ++ below }

/-- 43_stack.md, 42_control_flow.md: `push x` then `pop r` leaves x in r and the stack as before; `call` then `ret` goes on
after the `call`, with the stack as before. -/
def Obligations.PushPopAndCallRetRoundTrip : Prop :=
  (∀ (a : Operand) (d : Fin 8) (s : State), ∃ t u, exec (.push a) s = .next t ∧ exec (.pop (.reg d)) t = .next u ∧
    u.reg d = s.resolve a ∧ u.stack = s.stack ∧ SameRegsBut d s u) ∧
  (∀ (a : Operand) (s : State), ∃ t u, exec (.call a) s = .next t ∧ exec .ret t = .next u ∧
    u.ip = s.ip + 2 ∧ u.stack = s.stack ∧ SameRegs s u)

/-- R22: "The core appends one byte per `out` instruction and never reads the stream." Nothing has been appended at reset; a
step of any other instruction appends nothing; bytes already in the stream change nothing of what a run does and stay in
front of what it appends. -/
def Obligations.OutputIsAppendedAndNeverRead : Prop :=
  State.reset.output = [] ∧
  (∀ s t : State, step s = .next t →
    (s.status = .running ∧ (∃ a, s.decoded = .instr (.out a)) ∧ ∃ b, t.output = s.output ++ [b]) ∨
    ((∀ a, s.status = .running → s.decoded ≠ .instr (.out a)) ∧ t.output = s.output)) ∧
  (∀ (n : Nat) (s : State) (before : List Byte),
    runSteps n { s with output := before ++ s.output } =
      { runSteps n s with output := before ++ (runSteps n s).output })

/-- 70_reset_and_hazards.md section 5, 46_host_interface.md section 3: a run depends on the input responses it consumes
and on no other: responses behind them change nothing and stay with the host, as long as the run does not wait. -/
def Obligations.UnreadInputChangesNothing : Prop :=
  ∀ (n : Nat) (s : State) (more : List Response), (∀ m, m < n → (runSteps m s).waiting = false) →
    runSteps n (s.supply more) = (runSteps n s).supply more

/-- 45_io.md, 70_reset_and_hazards.md section 5: an `in` without a response ready changes nothing (log 16), and a step of a
Running machine changes nothing only there or at a jump to itself. -/
def Obligations.StepsThatChangeNothingWaitOrLoop : Prop :=
  (∀ s : State, s.waiting = true → step s = .next s) ∧
  (∀ s : State, s.status = .running → step s = .next s →
    s.waiting = true ∨ (∃ a, s.decoded = .instr (.jmp a) ∧ s.resolve a = s.ip) ∨
    (∃ a b, s.decoded = .instr (.jt a b) ∧ s.resolve a ≠ 0 ∧ s.resolve b = s.ip) ∨
    (∃ a b, s.decoded = .instr (.jf a b) ∧ s.resolve a = 0 ∧ s.resolve b = s.ip))

/-! ### Faults -/

/-- 60_exceptions.md section 2 (R137, R133) and 40_fetch_decode_dispatch.md section 4 (R70): a faulting instruction has changed
nothing but ip and the status: registers, stack, memory, both streams are as the step found them, but that the Fail response
which `InputReadFailure` reports may be gone (log 7, DEDUCED). No later step changes anything (log 12, the model's choice). -/
def Obligations.FaultsArePrecise : Prop :=
  ∀ (s t : State) (k : ErrorKind), s.status = .running → step s = .next t → t.status = .failed k →
    FaultFrame k s t ∧ ∀ n, runSteps n t = t

/-- R128: `ExpectedRegisterOperand` is raised when the operand in a `dst` position is a Literal, "before performing any
mutation", and "never raised for a `val` position, so never by `halt push jmp jt jf wmem call ret out noop`". -/
def Obligations.ExpectedRegisterExactlyForLiteralDst : Prop :=
  (∀ (i : Instr) (v : Word) (s : State), dstOperand i = some (.lit v) →
    ∃ t, exec i s = .next t ∧ FaultFrame .expectedRegisterOperand s t) ∧
  (∀ (i : Instr) (s t : State), s.status = .running → exec i s = .next t →
    t.status = .failed .expectedRegisterOperand → ∃ v, dstOperand i = some (.lit v)) ∧
  (∀ i : Instr, (i = .halt ∨ (∃ a, i = .push a) ∨ (∃ a, i = .jmp a) ∨ (∃ a b, i = .jt a b) ∨ (∃ a b, i = .jf a b) ∨
    (∃ a b, i = .wmem a b) ∨ (∃ a, i = .call a) ∨ i = .ret ∨ (∃ a, i = .out a) ∨ i = .noop) ↔ dstOperand i = none)

/-- 43_stack.md and 42_control_flow.md (R101, R94; R130): `StackUnderflow` is raised by `pop` of a register and by `ret` exactly
when the stack is empty, with no register changed; no push and no other instruction raises it. -/
def Obligations.StackUnderflowExactlyOnAnEmptyStack : Prop :=
  ∀ (i : Instr) (s t : State), s.status = .running → exec i s = .next t →
    (t.status = .failed .stackUnderflow ↔ s.stack = [] ∧ (i = .ret ∨ ∃ d, i = .pop (.reg d))) ∧
    (t.status = .failed .stackUnderflow → FaultFrame .stackUnderflow s t)

/-- R131: "`InputReadFailure` is raised by `in` when the input stream's response is Fail", in no other case, and the register
is not written with any stand-in. -/
def Obligations.InputReadFailureExactlyOnFail : Prop :=
  ∀ (i : Instr) (s t : State), s.status = .running → exec i s = .next t →
    (t.status = .failed .inputReadFailure ↔ s.input.head? = some .fail ∧ ∃ d, i = .inp (.reg d)) ∧
    (t.status = .failed .inputReadFailure → FaultFrame .inputReadFailure s t)

/-- 60_exceptions.md section 1, the two kinds the spec adds by its decisions D1 and D2 (logs 1, 2): as an effect, an address
above 32767 faults in `rmem` and `wmem` only, and a divisor 0 in `mod` only. -/
def Obligations.AddressAndDivisorFaultsExactlyThere : Prop :=
  ∀ (i : Instr) (s t : State), s.status = .running → exec i s = .next t →
    (t.status = .failed .memoryAddressOutOfRange ↔
      (∃ d b, i = .rmem (.reg d) b ∧ 32768 ≤ (s.resolve b).toNat) ∨
      (∃ a b, i = .wmem a b ∧ 32768 ≤ (s.resolve a).toNat)) ∧
    (t.status = .failed .divisionByZero ↔ ∃ d b c, i = .mod (.reg d) b c ∧ s.resolve c = 0)

/-- 10_state.md R15 (D1): ip never wraps: from an address in memory a step leaves it at most at 32768, unless the
instruction is a control transfer, whose target is any 16-bit value. -/
def Obligations.IpNeverRunsPastMemory : Prop :=
  ∀ s t : State, s.status = .running → s.ip.toNat ≤ 32767 → step s = .next t →
    t.ip.toNat ≤ 32768 ∨ (∃ a, s.decoded = .instr (.jmp a) ∨ s.decoded = .instr (.call a)) ∨
    (∃ a b, s.decoded = .instr (.jt a b) ∨ s.decoded = .instr (.jf a b)) ∨ s.decoded = .instr .ret

/-! ### Stores, loads and fetches -/

/-- R40: "A store is seen by every later instruction fetch, with nothing in between", "including when that cell is the very
next word the machine fetches": after a `wmem` and any number of steps, none of them a `wmem` to that address, a `Fetch()` of
the cell gives the word stored, and so does the next opcode fetch where ip is there. -/
def Obligations.StoreIsSeenByEveryLaterFetch : Prop :=
  ∀ (a b : Operand) (s t : State) (n : Nat), s.Inv → (s.resolve a).toNat ≤ 32767 → exec (.wmem a b) s = .next t →
    (∀ m, m < n → ∀ x y, (runSteps m t).decoded = .instr (.wmem x y) → (runSteps m t).resolve x ≠ s.resolve a) →
    (∀ k, ((runSteps n t).setIp (s.resolve a)).fetchThen k =
      match decodeOperand (s.resolve b) with
      | .error e => raise e (((runSteps n t).setIp (s.resolve a)).advance 1)
      | .ok op => k (s.resolve b) op (((runSteps n t).setIp (s.resolve a)).advance 1)) ∧
    ((runSteps n t).ip = s.resolve a → (runSteps n t).window.head? = some (s.resolve b)) ∧
    (s.resolve a = s.ip + 3 → t.window.head? = some (s.resolve b))

/-- 20_memory.md section 3: after a `wmem`, however many instructions run in between, none of them a `wmem` to that
address, an `rmem` from it "returns exactly the last written value". -/
def Obligations.LoadReturnsTheLastStoredWord : Prop :=
  ∀ (a b : Operand) (s t : State) (n : Nat), s.Inv → (s.resolve a).toNat ≤ 32767 → exec (.wmem a b) s = .next t →
    (∀ m, m < n → ∀ x y, (runSteps m t).decoded = .instr (.wmem x y) → (runSteps m t).resolve x ≠ s.resolve a) →
    ∀ (d : Fin 8) (c : Operand), (runSteps n t).resolve c = s.resolve a →
      ∃ u, exec (.rmem (.reg d) c) (runSteps n t) = .next u ∧ u.reg d = s.resolve b

/-! ### The host interface -/

/-- 46_host_interface.md section 1 (R116, R117; D11, log 11): LoadImage on a freshly constructed machine writes word k of
the image to cell k, any word, leaves the cells behind it 0, and changes nothing else (but the model's own load mark); a longer
image is refused, and so is loading a machine that is not fresh. -/
def Obligations.LoadImageWritesTheImageFromZero : Prop :=
  (∀ (ws : List Word) (s : State), ws.length ≤ 32768 → s.fresh = true → ∃ t, loadImage ws s = .next t ∧
    (∀ (k : Nat) (h : k < ws.length), t.mem.read (BitVec.ofNat 16 k) = some ws[k]) ∧
    (∀ k : Nat, ws.length ≤ k → k < 32768 → t.mem.read (BitVec.ofNat 16 k) = some 0) ∧
    t.Inv ∧ SameRegs s t ∧ t.ip = s.ip ∧ t.stack = s.stack ∧ t.status = s.status ∧ SameStreams s t ∧ t.loaded = true) ∧
  (∀ (ws : List Word) (s : State), 32768 < ws.length → loadImage ws s = .refused .imageTooLong) ∧
  (∀ (ws : List Word) (s : State), ws.length ≤ 32768 → s.fresh = false → loadImage ws s = .refused .imageLoadedLate)

/-- 46_host_interface.md section 1 (R116; the spec's decision D11, log 11): "LoadImage is called at most once per Construct,
before Run": once an image has been loaded, whatever it held, every further LoadImage is refused, however many steps have run
and whatever input has come; so it is once a machine without an image has taken a step. The mark that remembers the load is
the model's own; no instruction changes it. -/
def Obligations.ImageIsLoadedAtMostOnceBeforeRun : Prop :=
  (∀ (ws : List Word) (s t : State), loadImage ws s = .next t →
    ∀ (n : Nat) (rs : List Response) (vs : List Word),
      loadImage vs ((runSteps n t).supply rs) =
        .refused (if 32768 < vs.length then .imageTooLong else .imageLoadedLate)) ∧
  (∀ (s : State) (n : Nat) (rs : List Response) (vs : List Word), s.fresh = true → 0 < n →
    loadImage vs ((runSteps n s).supply rs) =
      .refused (if 32768 < vs.length then .imageTooLong else .imageLoadedLate)) ∧
  (∀ (i : Instr) (s t : State), exec i s = .next t → t.loaded = s.loaded)

/-- R55: "When an image is stored as a file, each word is two bytes, low byte first: the word w is the byte pair (w mod 256,
w div 256), and words follow each other in address order from address 0"; and the bytes read back give the words. -/
def Obligations.ImageFileIsLittleEndian : Prop :=
  ∀ ws : List Word, (imageBytes ws).length = 2 * ws.length ∧
    (∀ (k : Nat) (h : k < ws.length),
      ((imageBytes ws)[2 * k]?.map BitVec.toNat) = some (ws[k].toNat % 256) ∧
      ((imageBytes ws)[2 * k + 1]?.map BitVec.toNat) = some (ws[k].toNat / 256)) ∧
    imageOfBytes (imageBytes ws) = some ws

/-- The model's own aid for placing an instruction (log 17): where the decoder reads an instruction from a table word, the
very next step of the state it is placed in runs exactly that instruction. -/
def Obligations.PlacedInstructionRunsNext : Prop :=
  ∀ (s : State) (nbits w : Nat) (i : Instr), s.Inv → decodeTableWord nbits w = some i →
    step (s.withFetchWord nbits w) = exec i (s.withFetchWord nbits w)
end

