-- ==== Sys2Proof/Laws/State.lean ====
section
/-! SUPPORT. One lemma per field of State and update of it, so that no later proof unfolds a record update. -/

namespace Sys2Proof.Machine

/-! ### State.setReg -/

@[simp] theorem State.setReg_regs (s : State) (i : Fin 8) (v : Word) : (s.setReg i v).regs = s.regs.set i v := rfl
@[simp] theorem State.setReg_ip (s : State) (i : Fin 8) (v : Word) : (s.setReg i v).ip = s.ip := rfl
@[simp] theorem State.setReg_stack (s : State) (i : Fin 8) (v : Word) : (s.setReg i v).stack = s.stack := rfl
@[simp] theorem State.setReg_mem (s : State) (i : Fin 8) (v : Word) : (s.setReg i v).mem = s.mem := rfl
@[simp] theorem State.setReg_status (s : State) (i : Fin 8) (v : Word) : (s.setReg i v).status = s.status := rfl
@[simp] theorem State.setReg_input (s : State) (i : Fin 8) (v : Word) : (s.setReg i v).input = s.input := rfl
@[simp] theorem State.setReg_output (s : State) (i : Fin 8) (v : Word) : (s.setReg i v).output = s.output := rfl
@[simp] theorem State.setReg_loaded (s : State) (i : Fin 8) (v : Word) : (s.setReg i v).loaded = s.loaded := rfl

/-! ### State.setIp -/

@[simp] theorem State.setIp_regs (s : State) (v : Word) : (s.setIp v).regs = s.regs := rfl
@[simp] theorem State.setIp_ip (s : State) (v : Word) : (s.setIp v).ip = v := rfl
@[simp] theorem State.setIp_stack (s : State) (v : Word) : (s.setIp v).stack = s.stack := rfl
@[simp] theorem State.setIp_mem (s : State) (v : Word) : (s.setIp v).mem = s.mem := rfl
@[simp] theorem State.setIp_status (s : State) (v : Word) : (s.setIp v).status = s.status := rfl
@[simp] theorem State.setIp_input (s : State) (v : Word) : (s.setIp v).input = s.input := rfl
@[simp] theorem State.setIp_output (s : State) (v : Word) : (s.setIp v).output = s.output := rfl
@[simp] theorem State.setIp_loaded (s : State) (v : Word) : (s.setIp v).loaded = s.loaded := rfl
@[simp] theorem State.setIp_reg (s : State) (v : Word) (j : Fin 8) : (s.setIp v).reg j = s.reg j := rfl
@[simp] theorem State.setIp_resolve (s : State) (v : Word) (op : Operand) : (s.setIp v).resolve op = s.resolve op := by
  cases op <;> rfl

/-! ### State.advance -/

@[simp] theorem State.advance_regs (s : State) (n : Nat) : (s.advance n).regs = s.regs := rfl
@[simp] theorem State.advance_ip (s : State) (n : Nat) : (s.advance n).ip = s.ip + BitVec.ofNat 16 n := rfl
@[simp] theorem State.advance_stack (s : State) (n : Nat) : (s.advance n).stack = s.stack := rfl
@[simp] theorem State.advance_mem (s : State) (n : Nat) : (s.advance n).mem = s.mem := rfl
@[simp] theorem State.advance_status (s : State) (n : Nat) : (s.advance n).status = s.status := rfl
@[simp] theorem State.advance_input (s : State) (n : Nat) : (s.advance n).input = s.input := rfl
@[simp] theorem State.advance_output (s : State) (n : Nat) : (s.advance n).output = s.output := rfl
@[simp] theorem State.advance_loaded (s : State) (n : Nat) : (s.advance n).loaded = s.loaded := rfl
@[simp] theorem State.advance_reg (s : State) (n : Nat) (j : Fin 8) : (s.advance n).reg j = s.reg j := rfl
@[simp] theorem State.advance_resolve (s : State) (n : Nat) (op : Operand) : (s.advance n).resolve op = s.resolve op := by
  cases op <;> rfl

/-! ### State.push -/

@[simp] theorem State.push_regs (s : State) (v : Word) : (s.push v).regs = s.regs := rfl
@[simp] theorem State.push_ip (s : State) (v : Word) : (s.push v).ip = s.ip := rfl
@[simp] theorem State.push_stack (s : State) (v : Word) : (s.push v).stack = v :: s.stack := rfl
@[simp] theorem State.push_mem (s : State) (v : Word) : (s.push v).mem = s.mem := rfl
@[simp] theorem State.push_status (s : State) (v : Word) : (s.push v).status = s.status := rfl
@[simp] theorem State.push_input (s : State) (v : Word) : (s.push v).input = s.input := rfl
@[simp] theorem State.push_output (s : State) (v : Word) : (s.push v).output = s.output := rfl
@[simp] theorem State.push_loaded (s : State) (v : Word) : (s.push v).loaded = s.loaded := rfl
@[simp] theorem State.push_reg (s : State) (v : Word) (j : Fin 8) : (s.push v).reg j = s.reg j := rfl
@[simp] theorem State.push_resolve (s : State) (v : Word) (op : Operand) : (s.push v).resolve op = s.resolve op := by
  cases op <;> rfl

/-! ### State.setMem -/

@[simp] theorem State.setMem_regs (s : State) (m : Memory) : (s.setMem m).regs = s.regs := rfl
@[simp] theorem State.setMem_ip (s : State) (m : Memory) : (s.setMem m).ip = s.ip := rfl
@[simp] theorem State.setMem_stack (s : State) (m : Memory) : (s.setMem m).stack = s.stack := rfl
@[simp] theorem State.setMem_mem (s : State) (m : Memory) : (s.setMem m).mem = m := rfl
@[simp] theorem State.setMem_status (s : State) (m : Memory) : (s.setMem m).status = s.status := rfl
@[simp] theorem State.setMem_input (s : State) (m : Memory) : (s.setMem m).input = s.input := rfl
@[simp] theorem State.setMem_output (s : State) (m : Memory) : (s.setMem m).output = s.output := rfl
@[simp] theorem State.setMem_loaded (s : State) (m : Memory) : (s.setMem m).loaded = s.loaded := rfl
@[simp] theorem State.setMem_reg (s : State) (m : Memory) (j : Fin 8) : (s.setMem m).reg j = s.reg j := rfl
@[simp] theorem State.setMem_resolve (s : State) (m : Memory) (op : Operand) : (s.setMem m).resolve op = s.resolve op := by
  cases op <;> rfl

/-! ### State.outByte -/

@[simp] theorem State.outByte_regs (s : State) (b : Byte) : (s.outByte b).regs = s.regs := rfl
@[simp] theorem State.outByte_ip (s : State) (b : Byte) : (s.outByte b).ip = s.ip := rfl
@[simp] theorem State.outByte_stack (s : State) (b : Byte) : (s.outByte b).stack = s.stack := rfl
@[simp] theorem State.outByte_mem (s : State) (b : Byte) : (s.outByte b).mem = s.mem := rfl
@[simp] theorem State.outByte_status (s : State) (b : Byte) : (s.outByte b).status = s.status := rfl
@[simp] theorem State.outByte_input (s : State) (b : Byte) : (s.outByte b).input = s.input := rfl
@[simp] theorem State.outByte_output (s : State) (b : Byte) : (s.outByte b).output = s.output ++ [b] := rfl
@[simp] theorem State.outByte_loaded (s : State) (b : Byte) : (s.outByte b).loaded = s.loaded := rfl
@[simp] theorem State.outByte_reg (s : State) (b : Byte) (j : Fin 8) : (s.outByte b).reg j = s.reg j := rfl
@[simp] theorem State.outByte_resolve (s : State) (b : Byte) (op : Operand) : (s.outByte b).resolve op = s.resolve op := by
  cases op <;> rfl

/-! ### State.halt -/

@[simp] theorem State.halt_regs (s : State) : s.halt.regs = s.regs := rfl
@[simp] theorem State.halt_ip (s : State) : s.halt.ip = s.ip := rfl
@[simp] theorem State.halt_stack (s : State) : s.halt.stack = s.stack := rfl
@[simp] theorem State.halt_mem (s : State) : s.halt.mem = s.mem := rfl
@[simp] theorem State.halt_status (s : State) : s.halt.status = .halted := rfl
@[simp] theorem State.halt_input (s : State) : s.halt.input = s.input := rfl
@[simp] theorem State.halt_output (s : State) : s.halt.output = s.output := rfl
@[simp] theorem State.halt_loaded (s : State) : s.halt.loaded = s.loaded := rfl
@[simp] theorem State.halt_reg (s : State) (j : Fin 8) : s.halt.reg j = s.reg j := rfl
@[simp] theorem State.halt_resolve (s : State) (op : Operand) : s.halt.resolve op = s.resolve op := by
  cases op <;> rfl

/-! ### State.fail -/

@[simp] theorem State.fail_regs (s : State) (k : ErrorKind) : (s.fail k).regs = s.regs := rfl
@[simp] theorem State.fail_ip (s : State) (k : ErrorKind) : (s.fail k).ip = s.ip := rfl
@[simp] theorem State.fail_stack (s : State) (k : ErrorKind) : (s.fail k).stack = s.stack := rfl
@[simp] theorem State.fail_mem (s : State) (k : ErrorKind) : (s.fail k).mem = s.mem := rfl
@[simp] theorem State.fail_status (s : State) (k : ErrorKind) : (s.fail k).status = .failed k := rfl
@[simp] theorem State.fail_input (s : State) (k : ErrorKind) : (s.fail k).input = s.input := rfl
@[simp] theorem State.fail_output (s : State) (k : ErrorKind) : (s.fail k).output = s.output := rfl
@[simp] theorem State.fail_loaded (s : State) (k : ErrorKind) : (s.fail k).loaded = s.loaded := rfl
@[simp] theorem State.fail_reg (s : State) (k : ErrorKind) (j : Fin 8) : (s.fail k).reg j = s.reg j := rfl
@[simp] theorem State.fail_resolve (s : State) (k : ErrorKind) (op : Operand) : (s.fail k).resolve op = s.resolve op := by
  cases op <;> rfl

/-! ### State.supply -/

@[simp] theorem State.supply_regs (s : State) (rs : List Response) : (s.supply rs).regs = s.regs := rfl
@[simp] theorem State.supply_ip (s : State) (rs : List Response) : (s.supply rs).ip = s.ip := rfl
@[simp] theorem State.supply_stack (s : State) (rs : List Response) : (s.supply rs).stack = s.stack := rfl
@[simp] theorem State.supply_mem (s : State) (rs : List Response) : (s.supply rs).mem = s.mem := rfl
@[simp] theorem State.supply_status (s : State) (rs : List Response) : (s.supply rs).status = s.status := rfl
@[simp] theorem State.supply_input (s : State) (rs : List Response) : (s.supply rs).input = s.input ++ rs := rfl
@[simp] theorem State.supply_output (s : State) (rs : List Response) : (s.supply rs).output = s.output := rfl
@[simp] theorem State.supply_loaded (s : State) (rs : List Response) : (s.supply rs).loaded = s.loaded := rfl
@[simp] theorem State.supply_reg (s : State) (rs : List Response) (j : Fin 8) : (s.supply rs).reg j = s.reg j := rfl
@[simp] theorem State.supply_resolve (s : State) (rs : List Response) (op : Operand) : (s.supply rs).resolve op = s.resolve op := by
  cases op <;> rfl

/-! ### State.markLoaded -/

@[simp] theorem State.markLoaded_regs (s : State) : s.markLoaded.regs = s.regs := rfl
@[simp] theorem State.markLoaded_ip (s : State) : s.markLoaded.ip = s.ip := rfl
@[simp] theorem State.markLoaded_stack (s : State) : s.markLoaded.stack = s.stack := rfl
@[simp] theorem State.markLoaded_mem (s : State) : s.markLoaded.mem = s.mem := rfl
@[simp] theorem State.markLoaded_status (s : State) : s.markLoaded.status = s.status := rfl
@[simp] theorem State.markLoaded_input (s : State) : s.markLoaded.input = s.input := rfl
@[simp] theorem State.markLoaded_output (s : State) : s.markLoaded.output = s.output := rfl
@[simp] theorem State.markLoaded_loaded (s : State) : s.markLoaded.loaded = true := rfl
@[simp] theorem State.markLoaded_reg (s : State) (j : Fin 8) : s.markLoaded.reg j = s.reg j := rfl
@[simp] theorem State.markLoaded_resolve (s : State) (op : Operand) : s.markLoaded.resolve op = s.resolve op := by
  cases op <;> rfl

/-! ### Registers -/

@[simp] theorem State.setReg_reg_same (s : State) (i : Fin 8) (v : Word) : (s.setReg i v).reg i = v := by
  simp [State.setReg, State.reg]

theorem State.setReg_reg_other (s : State) {i j : Fin 8} (v : Word) (h : j ≠ i) :
    (s.setReg i v).reg j = s.reg j := by
  have h' : ¬ i.val = j.val := fun e => h (Fin.ext e.symm)
  simp [State.setReg, State.reg, h']

theorem State.setReg_reg (s : State) (i j : Fin 8) (v : Word) :
    (s.setReg i v).reg j = if j = i then v else s.reg j := by
  split
  · next h => subst h; exact s.setReg_reg_same j v
  · next h => exact s.setReg_reg_other v h

@[simp] theorem State.resolve_lit (s : State) (v : Word) : s.resolve (.lit v) = v := rfl
@[simp] theorem State.resolve_reg (s : State) (i : Fin 8) : s.resolve (.reg i) = s.reg i := rfl
@[simp] theorem regIndex_lit (v : Word) : regIndex (.lit v) = .error .expectedRegisterOperand := rfl
@[simp] theorem regIndex_reg (i : Fin 8) : regIndex (.reg i) = .ok i := rfl

/-- The registers, read one by one, determine the register file. -/
theorem State.regs_ext {s t : State} (h : ∀ j : Fin 8, t.reg j = s.reg j) : t.regs = s.regs := by
  apply Vector.ext
  intro k hk
  exact h ⟨k, hk⟩

/-! ### The instruction pointer -/

@[simp] theorem State.advance_zero (s : State) : s.advance 0 = s := by
  simp [State.advance]

theorem State.advance_advance (s : State) (m n : Nat) : (s.advance m).advance n = s.advance (m + n) := by
  simp [State.advance, BitVec.ofNat_add, BitVec.add_assoc]

theorem State.advance_ip_toNat (s : State) {n : Nat} (h : s.ip.toNat + n < 65536) :
    (s.advance n).ip.toNat = s.ip.toNat + n := by
  simp only [State.advance_ip, BitVec.toNat_add, BitVec.toNat_ofNat]
  omega

/-! ### The stack and the input stream -/

theorem State.pop_nil {s : State} (h : s.stack = []) : s.pop = none := by
  simp [State.pop, h]

theorem State.pop_cons {s : State} {v : Word} {rest : List Word} (h : s.stack = v :: rest) :
    s.pop = some (v, { s with stack := rest }) := by
  simp [State.pop, h]

theorem State.inByte_nil {s : State} (h : s.input = []) : s.inByte = none := by
  simp [State.inByte, h]

theorem State.inByte_cons {s : State} {r : Response} {rest : List Response} (h : s.input = r :: rest) :
    s.inByte = some (r, { s with input := rest }) := by
  simp [State.inByte, h]

/-! ### Faults -/

/-- Raising a fault changes the status and nothing else (60_exceptions.md R133). -/
theorem raise_eq (k : ErrorKind) (s : State) : raise k s = .next { s with status := .failed k } := rfl

@[simp] theorem withDst_lit (v : Word) (s : State) (h : Fin 8 → Result) :
    withDst (.lit v) s h = raise .expectedRegisterOperand (s.advance 2) := rfl

@[simp] theorem withDst_reg (d : Fin 8) (s : State) (h : Fin 8 → Result) : withDst (.reg d) s h = h d := rfl

end Sys2Proof.Machine
end

