-- ==== Sys2Proof/Laws/Decode.lean ====
section
/-! SUPPORT. The operand decoder and its encoder, and the small facts of the instruction decoder. -/

namespace Sys2Proof

/-! ### Operands -/

theorem decodeOperand_lit {w : Word} (h : w.toNat < 32768) : decodeOperand w = .ok (.lit w) := by
  simp [decodeOperand, Config.literalLimit, h]

theorem decodeOperand_reg {w : Word} (h : 32768 ≤ w.toNat) (h' : w.toNat < 32776) :
    decodeOperand w = .ok (.reg (Fin.ofNat 8 (w.toNat - 32768))) := by
  unfold decodeOperand Config.literalLimit Config.operandLimit
  rw [if_neg (by omega), if_pos h']

theorem decodeOperand_invalid {w : Word} (h : 32776 ≤ w.toNat) :
    decodeOperand w = .error .invalidInstructionValue := by
  unfold decodeOperand Config.literalLimit Config.operandLimit
  rw [if_neg (by omega), if_neg (by omega)]

/-- The three ranges of R60, as one case split. -/
theorem decodeOperand_cases (w : Word) :
    (w.toNat < 32768 ∧ decodeOperand w = .ok (.lit w)) ∨
    (32768 ≤ w.toNat ∧ w.toNat < 32776 ∧ decodeOperand w = .ok (.reg (Fin.ofNat 8 (w.toNat - 32768)))) ∨
    (32776 ≤ w.toNat ∧ decodeOperand w = .error .invalidInstructionValue) := by
  by_cases h : w.toNat < 32768
  · exact .inl ⟨h, decodeOperand_lit h⟩
  · by_cases h' : w.toNat < 32776
    · exact .inr (.inl ⟨by omega, h', decodeOperand_reg (by omega) h'⟩)
    · exact .inr (.inr ⟨by omega, decodeOperand_invalid (by omega)⟩)

theorem Operand.word_reg_toNat (i : Fin 8) : (Operand.reg i).word.toNat = 32768 + i.val := by
  have := i.isLt
  simp only [Operand.word, BitVec.toNat_ofNat]
  omega

/-- A legal operand's word decodes to it. -/
theorem decodeOperand_word {op : Operand} (h : op.wfVal = true) : decodeOperand op.word = .ok op := by
  cases op with
  | lit v =>
    have hv : v.toNat < 32768 := of_decide_eq_true h
    exact decodeOperand_lit hv
  | reg i =>
    have hi := i.isLt
    have hw := Operand.word_reg_toNat i
    rw [decodeOperand_reg (by omega) (by omega), hw]
    simp only [Nat.add_sub_cancel_left]
    congr 2
    exact Fin.ext (Nat.mod_eq_of_lt hi)

theorem Operand.wfVal_of_wfDst {op : Operand} (h : op.wfDst = true) : op.wfVal = true := by
  cases op with
  | lit v => simp [Operand.wfDst] at h
  | reg i => rfl

/-- A word that decodes is the word of the operand it decodes to, and that operand is legal. -/
theorem word_of_decodeOperand {w : Word} {op : Operand} (h : decodeOperand w = .ok op) :
    op.word = w ∧ op.wfVal = true := by
  rcases decodeOperand_cases w with ⟨hl, e⟩ | ⟨h1, h2, e⟩ | ⟨_, e⟩
  · rw [e] at h
    injection h with h
    subst h
    exact ⟨rfl, by simp [Operand.wfVal, Config.literalLimit, hl]⟩
  · rw [e] at h
    injection h with h
    subst h
    refine ⟨BitVec.eq_of_toNat_eq ?_, rfl⟩
    rw [Operand.word_reg_toNat]
    simp only [Fin.ofNat]
    omega
  · rw [e] at h
    cases h

theorem decodeOperand_error {w : Word} {e : ErrorKind} (h : decodeOperand w = .error e) :
    e = .invalidInstructionValue ∧ 32776 ≤ w.toNat := by
  rcases decodeOperand_cases w with ⟨_, e'⟩ | ⟨_, _, e'⟩ | ⟨hw, e'⟩ <;> rw [e'] at h
  · cases h
  · cases h
  · injection h with h
    exact ⟨h.symm, hw⟩

/-! ### Instructions -/

@[simp] theorem readOperand_nil (n : Nat) (k : Operand → List Word → Decoded) :
    readOperand n [] k = .reject .memoryAddressOutOfRange n := rfl

theorem readOperand_cons_ok {n : Nat} {w : Word} {rest : List Word} {op : Operand}
    (k : Operand → List Word → Decoded) (h : decodeOperand w = .ok op) : readOperand n (w :: rest) k = k op rest := by
  simp [readOperand, h]

theorem readOperand_cons_error {n : Nat} {w : Word} {rest : List Word} {e : ErrorKind}
    (k : Operand → List Word → Decoded) (h : decodeOperand w = .error e) :
    readOperand n (w :: rest) k = .reject e (n + 1) := by
  simp [readOperand, h]

/-- What an operand fetch that leads to an instruction has read. -/
theorem readOperand_eq_instr {n : Nat} {ws : List Word} {k : Operand → List Word → Decoded} {i : Instr}
    (h : readOperand n ws k = .instr i) :
    ∃ op rest, ws = op.word :: rest ∧ op.wfVal = true ∧ k op rest = .instr i := by
  cases ws with
  | nil => cases h
  | cons w rest =>
    unfold readOperand at h
    cases hw : decodeOperand w with
    | error e => simp [hw] at h
    | ok op =>
      obtain ⟨rfl, hop⟩ := word_of_decodeOperand hw
      exact ⟨op, rest, rfl, hop, by simpa [hw] using h⟩

@[simp] theorem registerCheckFirst_reg (d : Fin 8) (later : Decoded) : registerCheckFirst (.reg d) later = later := by
  cases later <;> rfl

@[simp] theorem registerCheckFirst_instr (a : Operand) (i : Instr) : registerCheckFirst a (.instr i) = .instr i := by
  cases a <;> rfl

theorem registerCheckFirst_eq_instr {a : Operand} {later : Decoded} {i : Instr}
    (h : registerCheckFirst a later = .instr i) : later = .instr i := by
  cases a <;> cases later <;> first | exact h | cases h

/-- Every opcode word with a row is a code 0..21, so it decodes as a Literal (R66). -/
theorem opcodeRow_lt {n : Nat} {shape : Shape} (h : opcodeRow n = some shape) : n < 22 := by
  rcases Nat.lt_or_ge n 22 with hn | hn
  · exact hn
  · obtain ⟨k, rfl⟩ := Nat.exists_eq_add_of_le hn
    rw [Nat.add_comm] at h
    cases h

theorem opcodeRow_none {n : Nat} (h : 22 ≤ n) : opcodeRow n = none := by
  obtain ⟨k, rfl⟩ := Nat.exists_eq_add_of_le h
  rw [Nat.add_comm]
  rfl

theorem decode_cons_row {w : Word} {rest : List Word} {shape : Shape} (h : opcodeRow w.toNat = some shape) :
    decode (w :: rest) = shape.read rest := by
  have hw := opcodeRow_lt h
  simp [decode, decodeOperand_lit (w := w) (by omega), dispatchWord, h]

/-- An opcode word that is a code 0..21 has a row. -/
theorem opcodeRow_isSome {n : Nat} (h : n < 22) : ∃ shape, opcodeRow n = some shape := by
  interval_cases n <;> exact ⟨_, rfl⟩

/-- What a decoder that answers an instruction has read: an opcode word with a row, and that row's operands. -/
theorem decode_eq_instr {ws : List Word} {i : Instr} (h : decode ws = .instr i) :
    ∃ (w : Word) (rest : List Word) (shape : Shape),
      ws = w :: rest ∧ opcodeRow w.toNat = some shape ∧ shape.read rest = .instr i := by
  cases ws with
  | nil => cases h
  | cons w rest =>
    simp only [decode] at h
    cases hd : decodeOperand w with
    | error e => rw [hd] at h; cases h
    | ok op =>
      rw [hd] at h
      simp only [dispatchWord] at h
      cases hr : opcodeRow w.toNat with
      | none => rw [hr] at h; cases h
      | some shape => rw [hr] at h; exact ⟨w, rest, shape, rfl, hr, h⟩

/-! ### Rejections -/

/-- A rejection by an operand fetch: it comes from the fetch itself, or from what follows it. -/
theorem readOperand_eq_reject {n m : Nat} {ws : List Word} {k : Operand → List Word → Decoded} {e : ErrorKind}
    (h : readOperand n ws k = .reject e m) :
    (e ≠ .invalidOpCode ∧ n ≤ m ∧ m ≤ n + ws.length) ∨
      ∃ op w rest, ws = w :: rest ∧ decodeOperand w = .ok op ∧ k op rest = .reject e m := by
  cases ws with
  | nil =>
    injection h with h1 h2
    subst h1
    exact .inl ⟨nofun, by omega, by omega⟩
  | cons w rest =>
    cases hd : decodeOperand w with
    | error e' =>
      rw [readOperand_cons_error _ hd] at h
      injection h with h1 h2
      subst h1
      rw [(decodeOperand_error hd).1]
      exact .inl ⟨nofun, by omega, by simp only [List.length_cons]; omega⟩
    | ok op =>
      rw [readOperand_cons_ok _ hd] at h
      exact .inr ⟨op, w, rest, rfl, hd, h⟩

theorem registerCheckFirst_eq_reject {a : Operand} {later : Decoded} {e : ErrorKind} {m : Nat}
    (h : registerCheckFirst a later = .reject e m) :
    later = .reject e m ∨ ((∃ v, a = .lit v) ∧ e = .expectedRegisterOperand ∧ m = 2) := by
  cases a with
  | reg d => exact .inl (by simpa using h)
  | lit v =>
    cases later with
    | instr i => cases h
    | reject e' m' =>
      injection h with h1 h2
      exact .inr ⟨⟨v, rfl⟩, h1.symm, h2.symm⟩

/-- A rejection by a handler's operand fetches is no InvalidOpCode, and counts no more words than there are. -/
theorem Shape.read_eq_reject {shape : Shape} {ws : List Word} {e : ErrorKind} {m : Nat}
    (h : shape.read ws = .reject e m) : e ≠ .invalidOpCode ∧ m ≤ 1 + ws.length := by
  cases shape with
  | none i => cases h
  | one f =>
    rcases readOperand_eq_reject h with h1 | ⟨_, _, _, rfl, _, h1⟩
    · exact ⟨h1.1, h1.2.2⟩
    · cases h1
  | val2 f =>
    rcases readOperand_eq_reject h with h1 | ⟨_, _, _, rfl, _, h1⟩
    · exact ⟨h1.1, h1.2.2⟩
    · rcases readOperand_eq_reject h1 with h2 | ⟨_, _, _, rfl, _, h2⟩
      · exact ⟨h2.1, by simp only [List.length_cons]; omega⟩
      · cases h2
  | dst2 f =>
    rcases readOperand_eq_reject h with h1 | ⟨_, _, _, rfl, _, h1⟩
    · exact ⟨h1.1, h1.2.2⟩
    · rcases registerCheckFirst_eq_reject h1 with h2 | ⟨_, rfl, rfl⟩
      · rcases readOperand_eq_reject h2 with h3 | ⟨_, _, _, rfl, _, h3⟩
        · exact ⟨h3.1, by simp only [List.length_cons]; omega⟩
        · cases h3
      · exact ⟨nofun, by simp only [List.length_cons]; omega⟩
  | dst3 f =>
    rcases readOperand_eq_reject h with h1 | ⟨_, _, _, rfl, _, h1⟩
    · exact ⟨h1.1, h1.2.2⟩
    · rcases registerCheckFirst_eq_reject h1 with h2 | ⟨_, rfl, rfl⟩
      · rcases readOperand_eq_reject h2 with h3 | ⟨_, _, _, rfl, _, h3⟩
        · exact ⟨h3.1, by simp only [List.length_cons]; omega⟩
        · rcases readOperand_eq_reject h3 with h4 | ⟨_, _, _, rfl, _, h4⟩
          · exact ⟨h4.1, by simp only [List.length_cons]; omega⟩
          · cases h4
      · exact ⟨nofun, by simp only [List.length_cons]; omega⟩

/-- What a rejection says: no word at all, a word that does not decode, no row, or the operand fetches. -/
theorem decode_eq_reject {ws : List Word} {e : ErrorKind} {m : Nat} (h : decode ws = .reject e m) :
    (ws = [] ∧ e = .memoryAddressOutOfRange ∧ m = 0) ∨
    ∃ w rest, ws = w :: rest ∧
      ((32776 ≤ w.toNat ∧ e = .invalidInstructionValue ∧ m = 1) ∨
       (22 ≤ w.toNat ∧ w.toNat < 32776 ∧ e = .invalidOpCode ∧ m = 1) ∨
       (w.toNat < 22 ∧ e ≠ .invalidOpCode ∧ m ≤ 1 + rest.length)) := by
  cases ws with
  | nil => injection h with h1 h2; exact .inl ⟨rfl, h1.symm, h2.symm⟩
  | cons w rest =>
    refine .inr ⟨w, rest, rfl, ?_⟩
    rcases Nat.lt_or_ge w.toNat 32776 with hlt | hge
    · have hok : ∃ op, decodeOperand w = .ok op := by
        rcases decodeOperand_cases w with ⟨_, e⟩ | ⟨_, _, e⟩ | ⟨h2, _⟩
        · exact ⟨_, e⟩
        · exact ⟨_, e⟩
        · omega
      obtain ⟨op, hop⟩ := hok
      simp only [decode, hop, dispatchWord] at h
      cases hr : opcodeRow w.toNat with
      | none =>
        rw [hr] at h
        injection h with h1 h2
        rcases Nat.lt_or_ge w.toNat 22 with hn | hn
        · obtain ⟨shape, hs⟩ := opcodeRow_isSome hn
          rw [hs] at hr
          cases hr
        · exact .inr (.inl ⟨hn, hlt, h1.symm, h2.symm⟩)
      | some shape =>
        rw [hr] at h
        exact .inr (.inr ⟨opcodeRow_lt hr, Shape.read_eq_reject h⟩)
    · simp only [decode, decodeOperand_invalid hge] at h
      injection h with h1 h2
      exact .inl ⟨hge, h1.symm, h2.symm⟩

end Sys2Proof
end

