-- ==== Sys2Proof/Laws/Memory.lean ====
section
/-! SUPPORT. Memory: a read after a write, the canonical form kept by every operation, and equal reads mean equal
memories. -/

namespace Sys2Proof.Machine

/-! ### One cell -/

theorem Memory.get_entry_append (a b : Nat) (v : Word) (m : Memory) (h : a = b → m.get b = 0 ∨ v ≠ 0) :
    (Memory.entry a v ++ m).get b = if b = a then v else m.get b := by
  unfold Memory.entry Config.unlistedCell
  split
  · next hv =>
    subst hv
    split
    · next hb => rcases h hb.symm with h | h <;> simp_all
    · rfl
  · simp [Memory.get]

/-- In canonical form no address below `lo` is listed. -/
theorem Memory.get_below {lo a : Nat} (h : a < lo) : ∀ {m : Memory}, m.wfFrom lo = true → m.get a = 0 := by
  intro m
  induction m generalizing lo with
  | nil => intro _; rfl
  | cons c rest ih =>
    obtain ⟨b, w⟩ := c
    intro hw
    simp only [Memory.wfFrom, Bool.and_eq_true, decide_eq_true_eq] at hw
    have hne : ¬ a = b := by omega
    simp only [Memory.get, hne, if_false]
    exact ih (by omega) hw.2

/-- Every listed address is below 32768. -/
theorem Memory.get_above {a : Nat} (h : Config.memCells ≤ a) :
    ∀ {lo : Nat} {m : Memory}, m.wfFrom lo = true → m.get a = 0 := by
  intro lo m
  induction m generalizing lo with
  | nil => intro _; rfl
  | cons c rest ih =>
    obtain ⟨b, w⟩ := c
    intro hw
    simp only [Memory.wfFrom, Bool.and_eq_true, decide_eq_true_eq] at hw
    have hne : ¬ a = b := by omega
    simp only [Memory.get, hne, if_false]
    exact ih hw.2

theorem Memory.wfFrom_mono {lo lo' : Nat} (h : lo ≤ lo') : ∀ {m : Memory}, m.wfFrom lo' = true → m.wfFrom lo = true
  | [], _ => rfl
  | (a, w) :: rest, hw => by
    simp only [Memory.wfFrom, Bool.and_eq_true, decide_eq_true_eq] at hw ⊢
    exact ⟨⟨⟨by omega, hw.1.1.2⟩, hw.1.2⟩, hw.2⟩

/-- After `put`, the cell reads the word put there and every other cell reads as before. -/
theorem Memory.get_putFrom (a : Nat) (v : Word) (b : Nat) :
    ∀ {lo : Nat} {m : Memory}, m.wfFrom lo = true → (m.put a v).get b = if b = a then v else m.get b := by
  intro lo m
  induction m generalizing lo with
  | nil =>
    intro _
    have := Memory.get_entry_append a b v [] (fun _ => .inl rfl)
    simpa [Memory.put] using this
  | cons c rest ih =>
    obtain ⟨x, w⟩ := c
    intro hw
    have hw' := hw
    simp only [Memory.wfFrom, Bool.and_eq_true, decide_eq_true_eq] at hw'
    unfold Memory.put
    split
    · next hlt =>
      apply Memory.get_entry_append
      intro hab
      subst hab
      left
      have : ¬ a = x := by omega
      simp only [Memory.get, this, if_false]
      exact Memory.get_below (by omega) hw'.2
    · split
      · next _ heq =>
        subst heq
        rw [Memory.get_entry_append]
        · split
          · rfl
          · next hb => simp [Memory.get, hb]
        · intro hab
          subst hab
          exact .inl (Memory.get_below (by omega) hw'.2)
      · next hlt hne =>
        simp only [Memory.get]
        split
        · next hb => rw [if_neg (by omega)]
        · exact ih hw'.2

theorem Memory.get_put {m : Memory} (h : m.wf = true) (a : Nat) (v : Word) (b : Nat) :
    (m.put a v).get b = if b = a then v else m.get b :=
  Memory.get_putFrom a v b h

theorem Memory.wfFrom_entry_append {lo a : Nat} {v : Word} {m : Memory} (hlo : lo ≤ a) (ha : a < Config.memCells)
    (hm : m.wfFrom (a + 1) = true) : (Memory.entry a v ++ m).wfFrom lo = true := by
  unfold Memory.entry
  split
  · exact Memory.wfFrom_mono (by omega) hm
  · next hv => simp [Memory.wfFrom, hlo, ha, hv, hm]

theorem Memory.wfFrom_put {a : Nat} (v : Word) (ha : a < Config.memCells) :
    ∀ {lo : Nat} {m : Memory}, lo ≤ a → m.wfFrom lo = true → (m.put a v).wfFrom lo = true := by
  intro lo m
  induction m generalizing lo with
  | nil =>
    intro hlo _
    simpa [Memory.put] using Memory.wfFrom_entry_append (v := v) (m := []) hlo ha rfl
  | cons c rest ih =>
    obtain ⟨x, w⟩ := c
    intro hlo hw
    have hw' := hw
    simp only [Memory.wfFrom, Bool.and_eq_true, decide_eq_true_eq] at hw'
    unfold Memory.put
    split
    · next hlt =>
      apply Memory.wfFrom_entry_append hlo ha
      simp only [Memory.wfFrom, Bool.and_eq_true, decide_eq_true_eq]
      exact ⟨⟨⟨by omega, hw'.1.1.2⟩, hw'.1.2⟩, hw'.2⟩
    · split
      · next _ heq =>
        subst heq
        exact Memory.wfFrom_entry_append hlo ha hw'.2
      · next hlt hne =>
        simp only [Memory.wfFrom, Bool.and_eq_true, decide_eq_true_eq]
        exact ⟨hw'.1, ih (by omega) hw'.2⟩

/-- A put below 32768 keeps the canonical form. -/
theorem Memory.wf_put {m : Memory} {a : Nat} (v : Word) (ha : a < Config.memCells) (h : m.wf = true) :
    (m.put a v).wf = true :=
  Memory.wfFrom_put v ha (Nat.zero_le a) h

/-! ### MemRead and MemWrite -/

theorem Memory.read_of_lt {m : Memory} {a : Word} (h : a.toNat < Config.memCells) :
    m.read a = some (m.get a.toNat) := by
  simp [Memory.read, h]

theorem Memory.read_of_ge {m : Memory} {a : Word} (h : Config.memCells ≤ a.toNat) : m.read a = none := by
  simp [Memory.read, Nat.not_lt.mpr h]

theorem Memory.read_eq_some {m : Memory} {a w : Word} :
    m.read a = some w ↔ a.toNat < Config.memCells ∧ m.get a.toNat = w := by
  unfold Memory.read
  split <;> simp_all

theorem Memory.write_eq_some {m m' : Memory} {a v : Word} :
    m.write a v = some m' ↔ a.toNat < Config.memCells ∧ m.put a.toNat v = m' := by
  unfold Memory.write
  split <;> simp_all

theorem Memory.write_of_lt {m : Memory} {a v : Word} (h : a.toNat < Config.memCells) :
    m.write a v = some (m.put a.toNat v) := by
  simp [Memory.write, h]

theorem Memory.write_of_ge {m : Memory} {a v : Word} (h : Config.memCells ≤ a.toNat) : m.write a v = none := by
  simp [Memory.write, Nat.not_lt.mpr h]

/-- A write keeps the canonical form. -/
theorem Memory.wf_write {m m' : Memory} {a v : Word} (h : m.wf = true) (hw : m.write a v = some m') :
    m'.wf = true := by
  obtain ⟨ha, rfl⟩ := Memory.write_eq_some.mp hw
  exact Memory.wf_put v ha h

/-- A read after a write: the word written at its address, everything else as before. -/
theorem Memory.read_write {m m' : Memory} {a v : Word} (h : m.wf = true) (hw : m.write a v = some m') (b : Word) :
    m'.read b = if b = a then some v else m.read b := by
  obtain ⟨ha, rfl⟩ := Memory.write_eq_some.mp hw
  unfold Memory.read
  rw [Memory.get_put h]
  by_cases hab : b = a
  · subst hab; simp [ha]
  · have : ¬ b.toNat = a.toNat := fun e => hab (BitVec.eq_of_toNat_eq e)
    simp [hab, this]

/-! ### Words at consecutive addresses -/

/-- Loading words keeps the canonical form. -/
theorem Memory.wf_putWords : ∀ (ws : List Word) (a : Nat) {m : Memory}, m.wf = true → (m.putWords a ws).wf = true
  | [], _, _, h => h
  | w :: ws, a, m, h => by
    refine Memory.wf_putWords ws (a + 1) ?_
    split
    · next ha => exact Memory.wf_put w ha h
    · exact h

/-- What each cell holds after words have been loaded at `a`. -/
theorem Memory.get_putWords : ∀ (ws : List Word) (a : Nat) {m : Memory}, m.wf = true → ∀ b,
    (m.putWords a ws).get b =
      if h : a ≤ b ∧ b < a + ws.length ∧ b < Config.memCells then ws[b - a]'(by omega) else m.get b
  | [], a, m, _, b => by
    rw [dif_neg (by simp only [List.length_nil]; omega)]
    rfl
  | w :: ws, a, m, h, b => by
    have hm : (if a < Config.memCells then m.put a w else m).wf = true := by
      split
      · next ha => exact Memory.wf_put w ha h
      · exact h
    have hg : (if a < Config.memCells then m.put a w else m).get b =
        if b = a ∧ a < Config.memCells then w else m.get b := by
      by_cases ha : a < Config.memCells
      · simp [ha, Memory.get_put h]
      · simp [ha]
    rw [Memory.putWords, Memory.get_putWords ws (a + 1) hm b, hg]
    by_cases hab : b = a
    · subst hab
      simp
    · by_cases hin : a + 1 ≤ b ∧ b < a + 1 + ws.length ∧ b < Config.memCells
      · rw [dif_pos hin, dif_pos (by simp only [List.length_cons]; omega)]
        have : b - a = (b - (a + 1)) + 1 := by omega
        simp [this]
      · rw [dif_neg hin, if_neg (by simp [hab]), dif_neg (by simp only [List.length_cons]; omega)]

/-- The word at offset `k` of a window. -/
theorem Memory.getElem?_window (m : Memory) : ∀ (n a k : Nat),
    (m.window a n)[k]? = if k < n ∧ a + k < Config.memCells then some (m.get (a + k)) else none
  | 0, a, k => by simp [Memory.window]
  | n + 1, a, k => by
    unfold Memory.window
    split
    · next ha =>
      cases k with
      | zero => simp [ha]
      | succ k =>
        rw [List.getElem?_cons_succ, Memory.getElem?_window m n (a + 1) k]
        have : a + 1 + k = a + (k + 1) := by omega
        simp [this]
    · next ha =>
      rw [if_neg (by omega)]
      rfl

/-! ### Equal reads mean equal memories -/

theorem Memory.ext_from : ∀ {lo : Nat} {m m' : Memory}, m.wfFrom lo = true → m'.wfFrom lo = true →
    (∀ a, m.get a = m'.get a) → m = m'
  | _, [], [], _, _, _ => rfl
  | _, [], (b, w) :: r, _, h', e => by
    simp only [Memory.wfFrom, Bool.and_eq_true, decide_eq_true_eq] at h'
    have := e b
    simp only [Memory.get, if_true] at this
    exact absurd this.symm h'.1.2
  | _, (b, w) :: r, [], h, _, e => by
    simp only [Memory.wfFrom, Bool.and_eq_true, decide_eq_true_eq] at h
    have := e b
    simp only [Memory.get, if_true] at this
    exact absurd this h.1.2
  | lo, (a, v) :: r, (b, w) :: r', h, h', e => by
    have hc := h
    have hc' := h'
    simp only [Memory.wfFrom, Bool.and_eq_true, decide_eq_true_eq] at hc hc'
    have hab : a = b := by
      rcases Nat.lt_trichotomy a b with hlt | heq | hgt
      · exfalso
        have ha := e a
        have hn : ¬ a = b := by omega
        simp only [Memory.get, if_true, hn, if_false] at ha
        rw [Memory.get_below (by omega) hc'.2] at ha
        exact hc.1.2 ha
      · exact heq
      · exfalso
        have hb := e b
        have hn : ¬ b = a := by omega
        simp only [Memory.get, if_true, hn, if_false] at hb
        rw [Memory.get_below (by omega) hc.2] at hb
        exact hc'.1.2 hb.symm
    subst hab
    have hv : v = w := by simpa [Memory.get] using e a
    subst hv
    have hr : r = r' := by
      refine Memory.ext_from hc.2 hc'.2 fun x => ?_
      by_cases hx : x = a
      · subst hx
        rw [Memory.get_below (by omega) hc.2, Memory.get_below (by omega) hc'.2]
      · simpa [Memory.get, hx] using e x
    rw [hr]

/-- Two canonical memories in which every cell reads the same are equal. -/
theorem Memory.ext_of_read {m m' : Memory} (h : m.wf = true) (h' : m'.wf = true)
    (e : ∀ a : Word, m.read a = m'.read a) : m = m' := by
  refine Memory.ext_from h h' fun a => ?_
  by_cases ha : a < Config.memCells
  · have hn : (BitVec.ofNat 16 a).toNat = a := by
      unfold Config.memCells at ha
      simp only [BitVec.toNat_ofNat]
      omega
    have := e (BitVec.ofNat 16 a)
    simpa [Memory.read, hn, ha] using this
  · rw [Memory.get_above (by omega) h, Memory.get_above (by omega) h']

end Sys2Proof.Machine
end

