-- ==== Sys2Proof/Laws/Exec.lean ====
section
/-! SUPPORT. What the meanings can do, said once: equations for each form (the register form, the Literal form, each
effect check), and one inversion over all of them. -/

namespace Sys2Proof.Machine

/-! ### Arithmetic, logic, comparison -/

@[simp] theorem aluTwo_reg (f : Word → Word) (d : Fin 8) (b : Operand) (s : State) :
    aluTwo f (.reg d) b s = .next ((s.advance 3).setReg d (f (s.resolve b))) := rfl

@[simp] theorem aluTwo_lit (f : Word → Word) (v : Word) (b : Operand) (s : State) :
    aluTwo f (.lit v) b s = .next ((s.advance 2).fail .expectedRegisterOperand) := rfl

@[simp] theorem aluThree_reg (f : Word → Word → Word) (d : Fin 8) (b c : Operand) (s : State) :
    aluThree f (.reg d) b c s = .next ((s.advance 4).setReg d (f (s.resolve b) (s.resolve c))) := rfl

@[simp] theorem aluThree_lit (f : Word → Word → Word) (v : Word) (b c : Operand) (s : State) :
    aluThree f (.lit v) b c s = .next ((s.advance 2).fail .expectedRegisterOperand) := rfl

@[simp] theorem execMod_lit (v : Word) (b c : Operand) (s : State) :
    execMod (.lit v) b c s = .next ((s.advance 2).fail .expectedRegisterOperand) := rfl

theorem execMod_zero (d : Fin 8) (b : Operand) {c : Operand} {s : State} (h : s.resolve c = 0) :
    execMod (.reg d) b c s = .next ((s.advance 4).fail .divisionByZero) := by
  simp [execMod, h, raise]

theorem execMod_nonzero (d : Fin 8) (b : Operand) {c : Operand} {s : State} (h : s.resolve c ≠ 0) :
    execMod (.reg d) b c s =
      .next ((s.advance 4).setReg d (modWords (s.resolve b) (s.resolve c))) := by
  simp only [execMod, withDst_reg, if_neg h]

theorem reduced_toNat (n : Nat) : (reduced n).toNat = n % 32768 := by
  simp only [reduced, Config.modulus, BitVec.toNat_ofNat]
  omega

theorem modWords_toNat (x y : Word) : (modWords x y).toNat = x.toNat % y.toNat := by
  have h := x.isLt
  have : x.toNat % y.toNat ≤ x.toNat := Nat.mod_le _ _
  simp only [modWords, BitVec.toNat_ofNat]
  omega

/-! ### Stack -/

@[simp] theorem execPop_lit (v : Word) (s : State) :
    execPop (.lit v) s = .next ((s.advance 2).fail .expectedRegisterOperand) := rfl

theorem execPop_empty (d : Fin 8) {s : State} (h : s.stack = []) :
    execPop (.reg d) s = .next ((s.advance 2).fail .stackUnderflow) := by
  simp [execPop, State.pop, h, raise]

theorem execPop_cons (d : Fin 8) {s : State} {v : Word} {rest : List Word} (h : s.stack = v :: rest) :
    execPop (.reg d) s = .next (State.setReg { s.advance 2 with stack := rest } d v) := by
  simp [execPop, State.pop, h]

theorem execRet_empty {s : State} (h : s.stack = []) :
    execRet s = .next ((s.advance 1).fail .stackUnderflow) := by
  simp [execRet, State.pop, h, raise]

theorem execRet_cons {s : State} {t : Word} {rest : List Word} (h : s.stack = t :: rest) :
    execRet s = .next (State.setIp { s with stack := rest } t) := by
  simp [execRet, State.pop, h, State.setIp, State.advance]

/-! ### Memory -/

@[simp] theorem execRmem_lit (v : Word) (b : Operand) (s : State) :
    execRmem (.lit v) b s = .next ((s.advance 2).fail .expectedRegisterOperand) := rfl

theorem execRmem_some (d : Fin 8) {b : Operand} {s : State} {v : Word} (h : s.mem.read (s.resolve b) = some v) :
    execRmem (.reg d) b s = .next ((s.advance 3).setReg d v) := by
  simp [execRmem, h]

theorem execRmem_none (d : Fin 8) {b : Operand} {s : State} (h : s.mem.read (s.resolve b) = none) :
    execRmem (.reg d) b s = .next ((s.advance 3).fail .memoryAddressOutOfRange) := by
  simp [execRmem, h, raise]

theorem execWmem_some {a b : Operand} {s : State} {m : Memory} (h : s.mem.write (s.resolve a) (s.resolve b) = some m) :
    execWmem a b s = .next ((s.advance 3).setMem m) := by
  simp [execWmem, h]

theorem execWmem_none {a b : Operand} {s : State} (h : s.mem.write (s.resolve a) (s.resolve b) = none) :
    execWmem a b s = .next ((s.advance 3).fail .memoryAddressOutOfRange) := by
  simp [execWmem, h, raise]

/-! ### Conditional jumps -/

theorem isTrue_of_ne {w : Word} (h : w ≠ 0) : isTrue w = true := decide_eq_true h

theorem isTrue_of_eq {w : Word} (h : w = 0) : isTrue w = false := decide_eq_false (not_not.mpr h)

theorem execJt_true {a : Operand} (b : Operand) {s : State} (h : s.resolve a ≠ 0) :
    execJt a b s = .next (s.setIp (s.resolve b)) := by
  rw [execJt, isTrue_of_ne h]; rfl

theorem execJt_false {a : Operand} (b : Operand) {s : State} (h : s.resolve a = 0) :
    execJt a b s = .next (s.advance 3) := by
  rw [execJt, isTrue_of_eq h]; rfl

theorem execJf_true {a : Operand} (b : Operand) {s : State} (h : s.resolve a = 0) :
    execJf a b s = .next (s.setIp (s.resolve b)) := by
  rw [execJf, isTrue_of_eq h]; rfl

theorem execJf_false {a : Operand} (b : Operand) {s : State} (h : s.resolve a ≠ 0) :
    execJf a b s = .next (s.advance 3) := by
  rw [execJf, isTrue_of_ne h]; rfl

/-! ### Input -/

@[simp] theorem execIn_lit (v : Word) (s : State) :
    execIn (.lit v) s = .next ((s.advance 2).fail .expectedRegisterOperand) := rfl

theorem execIn_wait (d : Fin 8) {s : State} (h : s.input = []) : execIn (.reg d) s = .next s := by
  simp [execIn, State.inByte, h]

theorem execIn_byte (d : Fin 8) {s : State} {b : Byte} {rest : List Response} (h : s.input = .byte b :: rest) :
    execIn (.reg d) s = .next ((State.advance { s with input := rest } 2).setReg d (byteWord b)) := by
  simp [execIn, State.inByte, h]

theorem execIn_fail (d : Fin 8) {s : State} {rest : List Response} (h : s.input = .fail :: rest) :
    execIn (.reg d) s = .next ((State.advance { s with input := rest } 2).fail .inputReadFailure) := by
  simp [execIn, State.inByte, h, raise]

/-! ### Every instruction at once -/

/-- Everything an instruction can do to the state, by kind of effect, with its guard. What value a register write
carries is said by the equations above. -/
inductive Effect (i : Instr) (s : State) : State → Prop where
  | writeReg (d : Fin 8) (v : Word) (n : Nat) (hd : writtenReg i = some d) (hp : ∀ a, i ≠ .pop a)
      (hq : ∀ a, i ≠ .inp a) (hn : n = (encode i).length) : Effect i s ((s.advance n).setReg d v)
  | popReg (d : Fin 8) (v : Word) (rest : List Word) (hi : i = .pop (.reg d)) (hs : s.stack = v :: rest) :
      Effect i s (State.setReg { s.advance 2 with stack := rest } d v)
  | readByte (d : Fin 8) (b : Byte) (rest : List Response) (hi : i = .inp (.reg d)) (hs : s.input = .byte b :: rest) :
      Effect i s ((State.advance { s with input := rest } 2).setReg d (byteWord b))
  | wait (d : Fin 8) (hi : i = .inp (.reg d)) (hs : s.input = []) : Effect i s s
  | emit (a : Operand) (hi : i = .out a) : Effect i s ((s.advance 2).outByte (lowByte (s.resolve a)))
  | store (a b : Operand) (m : Memory) (hi : i = .wmem a b) (hm : s.mem.write (s.resolve a) (s.resolve b) = some m) :
      Effect i s ((s.advance 3).setMem m)
  | pushWord (a : Operand) (hi : i = .push a) : Effect i s ((s.advance 2).push (s.resolve a))
  | callTo (a : Operand) (hi : i = .call a) :
      Effect i s (((s.advance 2).push (s.advance 2).ip).setIp (s.resolve a))
  | returnTo (t : Word) (rest : List Word) (hi : i = .ret) (hs : s.stack = t :: rest) :
      Effect i s (State.setIp { s with stack := rest } t)
  | jumpTo (t : Word) (hi : i = .jmp (.lit t) ∨ (∃ a, i = .jmp a ∧ s.resolve a = t) ∨
      (∃ a b, i = .jt a b ∧ s.resolve a ≠ 0 ∧ s.resolve b = t) ∨
      (∃ a b, i = .jf a b ∧ s.resolve a = 0 ∧ s.resolve b = t)) : Effect i s (s.setIp t)
  | fallThrough (hi : (∃ a b, i = .jt a b ∧ s.resolve a = 0) ∨ (∃ a b, i = .jf a b ∧ s.resolve a ≠ 0)) :
      Effect i s (s.advance 3)
  | nothing (hi : i = .noop) : Effect i s (s.advance 1)
  | stop (hi : i = .halt) : Effect i s (s.advance 1).halt
  | literalDst (v : Word) (hd : dstOperand i = some (.lit v)) : Effect i s ((s.advance 2).fail .expectedRegisterOperand)
  | popEmpty (d : Fin 8) (hi : i = .pop (.reg d)) (hs : s.stack = []) : Effect i s ((s.advance 2).fail .stackUnderflow)
  | retEmpty (hi : i = .ret) (hs : s.stack = []) : Effect i s ((s.advance 1).fail .stackUnderflow)
  | modZero (d : Fin 8) (b c : Operand) (hi : i = .mod (.reg d) b c) (hz : s.resolve c = 0) :
      Effect i s ((s.advance 4).fail .divisionByZero)
  | loadOutside (d : Fin 8) (b : Operand) (hi : i = .rmem (.reg d) b) (hm : s.mem.read (s.resolve b) = none) :
      Effect i s ((s.advance 3).fail .memoryAddressOutOfRange)
  | storeOutside (a b : Operand) (hi : i = .wmem a b) (hm : s.mem.write (s.resolve a) (s.resolve b) = none) :
      Effect i s ((s.advance 3).fail .memoryAddressOutOfRange)
  | inputFailed (d : Fin 8) (rest : List Response) (hi : i = .inp (.reg d)) (hs : s.input = .fail :: rest) :
      Effect i s ((State.advance { s with input := rest } 2).fail .inputReadFailure)

theorem aluTwo_effect {i : Instr} {a b : Operand} (f : Word → Word) (s : State)
    (hw : ∀ d, a = .reg d → writtenReg i = some d) (hd : dstOperand i = some a) (hp : ∀ a, i ≠ .pop a)
    (hq : ∀ a, i ≠ .inp a) (hn : 3 = (encode i).length) : ∃ t, aluTwo f a b s = .next t ∧ Effect i s t := by
  cases a with
  | lit v => exact ⟨_, rfl, .literalDst v hd⟩
  | reg d => exact ⟨_, rfl, .writeReg d _ 3 (hw d rfl) hp hq hn⟩

theorem aluThree_effect {i : Instr} {a b c : Operand} (f : Word → Word → Word) (s : State)
    (hw : ∀ d, a = .reg d → writtenReg i = some d) (hd : dstOperand i = some a) (hp : ∀ a, i ≠ .pop a)
    (hq : ∀ a, i ≠ .inp a) (hn : 4 = (encode i).length) : ∃ t, aluThree f a b c s = .next t ∧ Effect i s t := by
  cases a with
  | lit v => exact ⟨_, rfl, .literalDst v hd⟩
  | reg d => exact ⟨_, rfl, .writeReg d _ 4 (hw d rfl) hp hq hn⟩

theorem execMod_effect (a b c : Operand) (s : State) :
    ∃ t, execMod a b c s = .next t ∧ Effect (.mod a b c) s t := by
  cases a with
  | lit v => exact ⟨_, rfl, .literalDst v rfl⟩
  | reg d =>
    by_cases h : s.resolve c = 0
    · exact ⟨_, execMod_zero d b h, .modZero d b c rfl h⟩
    · exact ⟨_, execMod_nonzero d b h, .writeReg d _ 4 rfl nofun nofun rfl⟩

theorem execPop_effect (a : Operand) (s : State) : ∃ t, execPop a s = .next t ∧ Effect (.pop a) s t := by
  cases a with
  | lit v => exact ⟨_, rfl, .literalDst v rfl⟩
  | reg d =>
    cases h : s.stack with
    | nil => exact ⟨_, execPop_empty d h, .popEmpty d rfl h⟩
    | cons v rest => exact ⟨_, execPop_cons d h, .popReg d v rest rfl h⟩

theorem execRmem_effect (a b : Operand) (s : State) : ∃ t, execRmem a b s = .next t ∧ Effect (.rmem a b) s t := by
  cases a with
  | lit v => exact ⟨_, rfl, .literalDst v rfl⟩
  | reg d =>
    cases h : s.mem.read (s.resolve b) with
    | none => exact ⟨_, execRmem_none d h, .loadOutside d b rfl h⟩
    | some v => exact ⟨_, execRmem_some d h, .writeReg d v 3 rfl nofun nofun rfl⟩

theorem execWmem_effect (a b : Operand) (s : State) : ∃ t, execWmem a b s = .next t ∧ Effect (.wmem a b) s t := by
  cases h : s.mem.write (s.resolve a) (s.resolve b) with
  | none => exact ⟨_, execWmem_none h, .storeOutside a b rfl h⟩
  | some m => exact ⟨_, execWmem_some h, .store a b m rfl h⟩

theorem execRet_effect (s : State) : ∃ t, execRet s = .next t ∧ Effect .ret s t := by
  cases h : s.stack with
  | nil => exact ⟨_, execRet_empty h, .retEmpty rfl h⟩
  | cons t rest => exact ⟨_, execRet_cons h, .returnTo t rest rfl h⟩

theorem execIn_effect (a : Operand) (s : State) : ∃ t, execIn a s = .next t ∧ Effect (.inp a) s t := by
  cases a with
  | lit v => exact ⟨_, rfl, .literalDst v rfl⟩
  | reg d =>
    rcases h : s.input with _ | ⟨_ | _, rest⟩
    · exact ⟨_, execIn_wait d h, .wait d rfl h⟩
    · exact ⟨_, execIn_byte d h, .readByte d _ rest rfl h⟩
    · exact ⟨_, execIn_fail d h, .inputFailed d rest rfl h⟩

theorem execJt_effect (a b : Operand) (s : State) : ∃ t, execJt a b s = .next t ∧ Effect (.jt a b) s t := by
  by_cases h : s.resolve a = 0
  · exact ⟨_, execJt_false b h, .fallThrough (.inl ⟨a, b, rfl, h⟩)⟩
  · exact ⟨_, execJt_true b h, .jumpTo _ (.inr (.inr (.inl ⟨a, b, rfl, h, rfl⟩)))⟩

theorem execJf_effect (a b : Operand) (s : State) : ∃ t, execJf a b s = .next t ∧ Effect (.jf a b) s t := by
  by_cases h : s.resolve a = 0
  · exact ⟨_, execJf_true b h, .jumpTo _ (.inr (.inr (.inr ⟨a, b, rfl, h, rfl⟩)))⟩
  · exact ⟨_, execJf_false b h, .fallThrough (.inr ⟨a, b, rfl, h⟩)⟩

/-- The inversion of `exec`: it answers a next state, and that state is one of the effects. -/
theorem exec_effect (i : Instr) (s : State) : ∃ t, exec i s = .next t ∧ Effect i s t := by
  cases i with
  | halt => exact ⟨_, rfl, .stop rfl⟩
  | set a b => exact aluTwo_effect (i := .set a b) (a := a) (fun x => x) s (fun d h => by rw [h]; rfl) rfl nofun nofun rfl
  | push a => exact ⟨_, rfl, .pushWord a rfl⟩
  | pop a => exact execPop_effect a s
  | eq a b c => exact aluThree_effect (i := .eq a b c) (a := a) _ s (fun d h => by rw [h]; rfl) rfl nofun nofun rfl
  | gt a b c => exact aluThree_effect (i := .gt a b c) (a := a) _ s (fun d h => by rw [h]; rfl) rfl nofun nofun rfl
  | jmp a => exact ⟨_, rfl, .jumpTo _ (.inr (.inl ⟨a, rfl, rfl⟩))⟩
  | jt a b => exact execJt_effect a b s
  | jf a b => exact execJf_effect a b s
  | add a b c => exact aluThree_effect (i := .add a b c) (a := a) _ s (fun d h => by rw [h]; rfl) rfl nofun nofun rfl
  | mult a b c => exact aluThree_effect (i := .mult a b c) (a := a) _ s (fun d h => by rw [h]; rfl) rfl nofun nofun rfl
  | mod a b c => exact execMod_effect a b c s
  | and a b c => exact aluThree_effect (i := .and a b c) (a := a) _ s (fun d h => by rw [h]; rfl) rfl nofun nofun rfl
  | or a b c => exact aluThree_effect (i := .or a b c) (a := a) _ s (fun d h => by rw [h]; rfl) rfl nofun nofun rfl
  | not a b => exact aluTwo_effect (i := .not a b) (a := a) _ s (fun d h => by rw [h]; rfl) rfl nofun nofun rfl
  | rmem a b => exact execRmem_effect a b s
  | wmem a b => exact execWmem_effect a b s
  | call a => exact ⟨_, rfl, .callTo a rfl⟩
  | ret => exact execRet_effect s
  | out a => exact ⟨_, rfl, .emit a rfl⟩
  | inp a => exact execIn_effect a s
  | noop => exact ⟨_, rfl, .nothing rfl⟩

/-- Where `exec` answers `t`, `t` is one of the effects. -/
theorem effect_of_exec {i : Instr} {s t : State} (h : exec i s = .next t) : Effect i s t := by
  obtain ⟨u, hu, he⟩ := exec_effect i s
  rw [hu] at h
  injection h with h
  exact h ▸ he

end Sys2Proof.Machine
end

