-- ==== Sys2Proof/Laws/Frame.lean ====
section
/-! SUPPORT. The frames of Safety.lean, shown once for the state updates the meanings use. -/

namespace Sys2Proof.Machine

/-- A register write after `n` fetches. -/
theorem writesOnlyReg_setReg (d : Fin 8) (n : Nat) (v : Word) (s : State) :
    WritesOnlyReg d n s ((s.advance n).setReg d v) :=
  ⟨fun _ h => State.setReg_reg_other _ v h, rfl, rfl, fun _ => rfl, rfl, rfl, rfl⟩

theorem writesOnlyIp_setIp (v : Word) (s : State) : WritesOnlyIp s (s.setIp v) :=
  ⟨fun _ => rfl, rfl, fun _ => rfl, rfl, rfl, rfl⟩

theorem writesOnlyIp_advance (n : Nat) (s : State) : WritesOnlyIp s (s.advance n) :=
  ⟨fun _ => rfl, rfl, fun _ => rfl, rfl, rfl, rfl⟩

/-- A fault after `n` fetches (60_exceptions.md R133). -/
theorem faultFrame_fail (k : ErrorKind) (n : Nat) (s : State) : FaultFrame k s ((s.advance n).fail k) :=
  ⟨rfl, fun _ => rfl, rfl, fun _ => rfl, rfl, .inl rfl⟩

/-- The fault of an `in` that was answered with Fail (45_io.md R112; log 7). -/
theorem faultFrame_inputFailed {s : State} {rest : List Response} (h : s.input = .fail :: rest) :
    FaultFrame .inputReadFailure s ((State.advance { s with input := rest } 2).fail .inputReadFailure) :=
  ⟨rfl, fun _ => rfl, rfl, fun _ => rfl, rfl, .inr ⟨rfl, h⟩⟩

/-- A store changes its cell and no other. -/
theorem sameMemBut_write {s : State} {m : Memory} {a v : Word} (h : s.mem.wf = true) (hw : s.mem.write a v = some m)
    (n : Nat) : SameMemBut a s ((s.advance n).setMem m) := by
  intro b hb
  have := Memory.read_write h hw b
  simpa [hb] using this

end Sys2Proof.Machine
end

