-- ==== Sys2Proof/Laws/Step.lean ====
section
/-! SUPPORT. The step: what it does while the machine runs and when it does not, the loop of Run, and the link between
the decoder over the words at ip and the spec's `Fetch()` sequence. -/

namespace Sys2Proof.Machine

/-! ### Steps -/

theorem step_running {s : State} (h : s.status = .running) : step s = runDecoded s.decoded s := by
  simp [step, h]

theorem step_terminal {s : State} (h : s.status ≠ .running) : step s = .next s := by
  unfold step
  cases hs : s.status with
  | running => exact absurd hs h
  | halted => rfl
  | failed k => rfl

theorem runDecoded_next (d : Decoded) (s : State) : ∃ t, runDecoded d s = .next t := by
  cases d with
  | instr i =>
    obtain ⟨t, ht, _⟩ := exec_effect i s
    exact ⟨t, ht⟩
  | reject k n => exact ⟨_, rfl⟩

/-- Everything a step of a Running machine can do: an instruction's effect, or the fault that stopped its fetches. -/
theorem step_cases {s t : State} (hs : s.status = .running) (h : step s = .next t) :
    (∃ i, s.decoded = .instr i ∧ Effect i s t) ∨
    (∃ k n, s.decoded = .reject k n ∧ t = (s.advance n).fail k) := by
  rw [step_running hs] at h
  cases hd : s.decoded with
  | instr i =>
    rw [hd] at h
    exact .inl ⟨i, rfl, effect_of_exec h⟩
  | reject k n =>
    rw [hd] at h
    injection h with h
    exact .inr ⟨k, n, rfl, h.symm⟩

/-! ### The loop of Run -/

@[simp] theorem runSteps_zero (s : State) : runSteps 0 s = s := rfl

theorem runSteps_succ {s t : State} (n : Nat) (h : step s = .next t) : runSteps (n + 1) s = runSteps n t := by
  simp [runSteps, h]

/-- A result that is a next state is one next state. -/
theorem next_inj {s t : State} (h : (Host.Outcome.next s : Result) = .next t) : s = t := by
  injection h

/-! ### The words at ip -/

theorem State.window_eq (s : State) : s.window = s.mem.window s.ip.toNat 4 := rfl

theorem Memory.window_succ_of_lt {m : Memory} {a : Nat} (n : Nat) (h : a < Config.memCells) :
    m.window a (n + 1) = m.get a :: m.window (a + 1) n := by
  simp [Memory.window, h]

theorem Memory.window_of_ge {m : Memory} {a : Nat} (n : Nat) (h : Config.memCells ≤ a) : m.window a n = [] := by
  cases n with
  | zero => rfl
  | succ n => simp [Memory.window, Nat.not_lt.mpr h]

/-- The words at ip never reach past the end of memory. -/
theorem Memory.window_length_le (m : Memory) : ∀ (n a : Nat), a ≤ 32768 → a + (m.window a n).length ≤ 32768
  | 0, a, h => by simpa [Memory.window]
  | n + 1, a, h => by
    unfold Memory.window Config.memCells
    split
    · have := Memory.window_length_le m n (a + 1) (by omega)
      simp only [List.length_cons]
      omega
    · simpa

/-- What the step decodes where a word stands at ip. -/
theorem State.decoded_of_read {s : State} {w : Word} (hw : s.mem.read s.ip = some w) :
    s.decoded = decode (w :: s.mem.window (s.ip.toNat + 1) 3) := by
  obtain ⟨hlt, hg⟩ := Memory.read_eq_some.mp hw
  rw [State.decoded, State.window_eq, Memory.window_succ_of_lt 3 hlt, hg]

/-- What the step decodes where the opcode word has a row. -/
theorem State.decoded_of_row {s : State} {w : Word} {shape : Shape} (hw : s.mem.read s.ip = some w)
    (hr : opcodeRow w.toNat = some shape) : s.decoded = shape.read (s.mem.window (s.ip.toNat + 1) 3) := by
  obtain ⟨hlt, hg⟩ := Memory.read_eq_some.mp hw
  rw [State.decoded, State.window_eq, Memory.window_succ_of_lt 3 hlt, hg]
  exact decode_cons_row hr

/-! ### The decoder against the spec's `Fetch()` -/

/-- `Fetch()` after `n` words have been fetched. -/
theorem State.fetchThen_advance {s : State} {n : Nat} (hp : s.ip.toNat + n ≤ 32768)
    (k : Word → Operand → State → Result) :
    (s.advance n).fetchThen k =
      if s.ip.toNat + n < Config.memCells then
        match decodeOperand (s.mem.get (s.ip.toNat + n)) with
        | .error e => raise e (s.advance (n + 1))
        | .ok op => k (s.mem.get (s.ip.toNat + n)) op (s.advance (n + 1))
      else raise .memoryAddressOutOfRange (s.advance n) := by
  have hip : (s.advance n).ip.toNat = s.ip.toNat + n := State.advance_ip_toNat s (by omega)
  unfold State.fetchThen
  simp only [State.advance_mem, State.advance_advance]
  by_cases h : s.ip.toNat + n < Config.memCells
  · have hlt : (s.advance n).ip.toNat < Config.memCells := hip ▸ h
    have hr : s.mem.read (s.advance n).ip = some (s.mem.get (s.ip.toNat + n)) := by
      rw [Memory.read_of_lt hlt, hip]
    cases hd : decodeOperand (s.mem.get (s.ip.toNat + n)) <;> simp only [hr, if_pos h, hd]
  · rw [Memory.read_of_ge (by omega), if_neg h]

/-- One operand fetch of the decoder is one `Fetch()`, when what follows agrees. -/
theorem runDecoded_readOperand {s : State} {n k : Nat} {f : Operand → List Word → Decoded}
    {q : Word → Operand → State → Result} (hp : s.ip.toNat + n ≤ 32768)
    (hq : ∀ w op, s.ip.toNat + n < 32768 →
      runDecoded (f op (s.mem.window (s.ip.toNat + (n + 1)) k)) s = q w op (s.advance (n + 1))) :
    runDecoded (readOperand n (s.mem.window (s.ip.toNat + n) (k + 1)) f) s = (s.advance n).fetchThen q := by
  rw [State.fetchThen_advance hp]
  by_cases h : s.ip.toNat + n < Config.memCells
  · rw [if_pos h, Memory.window_succ_of_lt k h]
    cases hd : decodeOperand (s.mem.get (s.ip.toNat + n)) with
    | error e => rw [readOperand_cons_error _ hd]; rfl
    | ok op =>
      rw [readOperand_cons_ok _ hd]
      exact hq _ op h
  · rw [if_neg h, Memory.window_of_ge _ (by omega)]
    rfl

/-- A Literal in a `dst` position faults whatever the later words are. -/
theorem runDecoded_literalFirst {s : State} (v : Word) {later : Decoded}
    (h : ∀ i, later = .instr i → exec i s = raise .expectedRegisterOperand (s.advance 2)) :
    runDecoded (registerCheckFirst (.lit v) later) s = raise .expectedRegisterOperand (s.advance 2) := by
  cases later with
  | instr i => exact h i rfl
  | reject k n => rfl

section Shapes

variable {s : State} {w : Word}

theorem step_none {i : Instr} (hs : s.status = .running) (hw : s.mem.read s.ip = some w)
    (hr : opcodeRow w.toNat = some (.none i)) : step s = exec i s := by
  rw [step_running hs, State.decoded_of_row hw hr]
  rfl

theorem step_oneVal {f : Operand → Instr} {q : Word → State → Result} (hs : s.status = .running)
    (hw : s.mem.read s.ip = some w) (hr : opcodeRow w.toNat = some (.one f))
    (he : ∀ a, exec (f a) s = q (s.resolve a) (s.advance 2)) : step s = (s.advance 1).fetchVal q := by
  have hlt := (Memory.read_eq_some.mp hw).1
  simp only [Config.memCells] at hlt
  rw [step_running hs, State.decoded_of_row hw hr]
  refine runDecoded_readOperand (s := s) (n := 1) (by omega) fun w op _ => ?_
  rw [State.advance_resolve]
  exact he op

theorem step_oneDst {f : Operand → Instr} {q : Fin 8 → State → Result} (hs : s.status = .running)
    (hw : s.mem.read s.ip = some w) (hr : opcodeRow w.toNat = some (.one f))
    (hl : ∀ v, exec (f (.lit v)) s = raise .expectedRegisterOperand (s.advance 2))
    (he : ∀ d, exec (f (.reg d)) s = q d (s.advance 2)) : step s = (s.advance 1).fetchDst q := by
  have hlt := (Memory.read_eq_some.mp hw).1
  simp only [Config.memCells] at hlt
  rw [step_running hs, State.decoded_of_row hw hr]
  refine runDecoded_readOperand (s := s) (n := 1) (by omega) fun w op _ => ?_
  cases op with
  | lit v => exact hl v
  | reg d => exact he d

theorem step_val2 {f : Operand → Operand → Instr} {q : Word → Word → State → Result} (hs : s.status = .running)
    (hw : s.mem.read s.ip = some w) (hr : opcodeRow w.toNat = some (.val2 f))
    (he : ∀ a b, exec (f a b) s = q (s.resolve a) (s.resolve b) (s.advance 3)) :
    step s = (s.advance 1).fetchVal fun x s => s.fetchVal fun y s => q x y s := by
  have hlt := (Memory.read_eq_some.mp hw).1
  simp only [Config.memCells] at hlt
  rw [step_running hs, State.decoded_of_row hw hr]
  refine runDecoded_readOperand (s := s) (n := 1) (by omega) fun w a _ => ?_
  refine runDecoded_readOperand (s := s) (n := 2) (by omega) fun w b _ => ?_
  rw [State.advance_resolve, State.advance_resolve]
  exact he a b

theorem step_dst2 {f : Operand → Operand → Instr} {q : Fin 8 → Word → State → Result} (hs : s.status = .running)
    (hw : s.mem.read s.ip = some w) (hr : opcodeRow w.toNat = some (.dst2 f))
    (hl : ∀ v b, exec (f (.lit v) b) s = raise .expectedRegisterOperand (s.advance 2))
    (he : ∀ d b, exec (f (.reg d) b) s = q d (s.resolve b) (s.advance 3)) : step s = (s.advance 1).operands2 q := by
  have hlt := (Memory.read_eq_some.mp hw).1
  simp only [Config.memCells] at hlt
  rw [step_running hs, State.decoded_of_row hw hr]
  unfold State.operands2 State.fetchDst
  refine runDecoded_readOperand (s := s) (n := 1) (by omega) fun w a _ => ?_
  cases a with
  | lit v =>
    refine runDecoded_literalFirst v fun i hi => ?_
    obtain ⟨b, _, _, _, hb⟩ := readOperand_eq_instr hi
    injection hb with hb
    exact hb ▸ hl v b
  | reg d =>
    rw [registerCheckFirst_reg]
    refine runDecoded_readOperand (s := s) (n := 2) (by omega) fun w b _ => ?_
    rw [State.advance_resolve]
    exact he d b

theorem step_dst3 {f : Operand → Operand → Operand → Instr} {q : Fin 8 → Word → Word → State → Result}
    (hs : s.status = .running) (hw : s.mem.read s.ip = some w) (hr : opcodeRow w.toNat = some (.dst3 f))
    (hl : ∀ v b c, exec (f (.lit v) b c) s = raise .expectedRegisterOperand (s.advance 2))
    (he : ∀ d b c, exec (f (.reg d) b c) s = q d (s.resolve b) (s.resolve c) (s.advance 4)) :
    step s = (s.advance 1).operands3 q := by
  have hlt := (Memory.read_eq_some.mp hw).1
  simp only [Config.memCells] at hlt
  rw [step_running hs, State.decoded_of_row hw hr]
  unfold State.operands3 State.fetchDst
  refine runDecoded_readOperand (s := s) (n := 1) (by omega) fun w a _ => ?_
  cases a with
  | lit v =>
    refine runDecoded_literalFirst v fun i hi => ?_
    obtain ⟨b, _, _, _, hb⟩ := readOperand_eq_instr hi
    obtain ⟨c, _, _, _, hc⟩ := readOperand_eq_instr hb
    injection hc with hc
    exact hc ▸ hl v b c
  | reg d =>
    rw [registerCheckFirst_reg]
    refine runDecoded_readOperand (s := s) (n := 2) (by omega) fun w b _ => ?_
    refine runDecoded_readOperand (s := s) (n := 3) (by omega) fun w c _ => ?_
    rw [State.advance_resolve, State.advance_resolve]
    exact he d b c

end Shapes

/-! ### LoadImage -/

theorem loadImage_fresh {image : List Word} {s : State} (hl : image.length ≤ 32768) (hf : s.fresh = true) :
    loadImage image s = .next (s.setMem (s.mem.putWords 0 image)).markLoaded := by
  unfold loadImage Config.imageMaxWords
  rw [if_neg (by omega), if_pos hf]

/-- A machine whose image has been loaded is not fresh. -/
theorem State.fresh_of_loaded {s : State} (h : s.loaded = true) : s.fresh = false := by
  refine decide_eq_false fun e => ?_
  have := congrArg State.loaded e
  rw [show State.loaded { s with input := [] } = true from h] at this
  cases this

/-- What a LoadImage that is not refused has done. -/
theorem loadImage_eq_next {image : List Word} {s t : State} (h : loadImage image s = .next t) :
    image.length ≤ 32768 ∧ s.fresh = true ∧ t = (s.setMem (s.mem.putWords 0 image)).markLoaded := by
  unfold loadImage Config.imageMaxWords at h
  split at h
  · cases h
  · split at h
    · exact ⟨by omega, ‹_›, (next_inj h).symm⟩
    · cases h

end Sys2Proof.Machine
end

