-- ==== Sys2Proof/Laws/PerInstr.lean ====
section
/-! SUPPORT. Facts of the instruction as syntax, one lemma per constructor: the form of its encoding (30_encoding.md R45,
R46). -/

namespace Sys2Proof.Laws

/-- The encoding is one opcode word that has a row in the opcode map, and as many operand words as that row's arity, at
most three. -/
def EncodedForm.Statement (i : Instr) : Prop :=
  ∃ w ops, encode i = w :: ops ∧ (opcodeRow w.toNat).isSome = true ∧ ops.length = wordArity w ∧ ops.length ≤ 3

theorem EncodedForm.halt : EncodedForm.Statement .halt :=
  ⟨_, _, rfl, rfl, rfl, by simp⟩

theorem EncodedForm.set (a b : Operand) : EncodedForm.Statement (.set a b) :=
  ⟨_, _, rfl, rfl, rfl, by simp⟩

theorem EncodedForm.push (a : Operand) : EncodedForm.Statement (.push a) :=
  ⟨_, _, rfl, rfl, rfl, by simp⟩

theorem EncodedForm.pop (a : Operand) : EncodedForm.Statement (.pop a) :=
  ⟨_, _, rfl, rfl, rfl, by simp⟩

theorem EncodedForm.eq (a b c : Operand) : EncodedForm.Statement (.eq a b c) :=
  ⟨_, _, rfl, rfl, rfl, by simp⟩

theorem EncodedForm.gt (a b c : Operand) : EncodedForm.Statement (.gt a b c) :=
  ⟨_, _, rfl, rfl, rfl, by simp⟩

theorem EncodedForm.jmp (a : Operand) : EncodedForm.Statement (.jmp a) :=
  ⟨_, _, rfl, rfl, rfl, by simp⟩

theorem EncodedForm.jt (a b : Operand) : EncodedForm.Statement (.jt a b) :=
  ⟨_, _, rfl, rfl, rfl, by simp⟩

theorem EncodedForm.jf (a b : Operand) : EncodedForm.Statement (.jf a b) :=
  ⟨_, _, rfl, rfl, rfl, by simp⟩

theorem EncodedForm.add (a b c : Operand) : EncodedForm.Statement (.add a b c) :=
  ⟨_, _, rfl, rfl, rfl, by simp⟩

theorem EncodedForm.mult (a b c : Operand) : EncodedForm.Statement (.mult a b c) :=
  ⟨_, _, rfl, rfl, rfl, by simp⟩

theorem EncodedForm.mod (a b c : Operand) : EncodedForm.Statement (.mod a b c) :=
  ⟨_, _, rfl, rfl, rfl, by simp⟩

theorem EncodedForm.and (a b c : Operand) : EncodedForm.Statement (.and a b c) :=
  ⟨_, _, rfl, rfl, rfl, by simp⟩

theorem EncodedForm.or (a b c : Operand) : EncodedForm.Statement (.or a b c) :=
  ⟨_, _, rfl, rfl, rfl, by simp⟩

theorem EncodedForm.not (a b : Operand) : EncodedForm.Statement (.not a b) :=
  ⟨_, _, rfl, rfl, rfl, by simp⟩

theorem EncodedForm.rmem (a b : Operand) : EncodedForm.Statement (.rmem a b) :=
  ⟨_, _, rfl, rfl, rfl, by simp⟩

theorem EncodedForm.wmem (a b : Operand) : EncodedForm.Statement (.wmem a b) :=
  ⟨_, _, rfl, rfl, rfl, by simp⟩

theorem EncodedForm.call (a : Operand) : EncodedForm.Statement (.call a) :=
  ⟨_, _, rfl, rfl, rfl, by simp⟩

theorem EncodedForm.ret : EncodedForm.Statement .ret :=
  ⟨_, _, rfl, rfl, rfl, by simp⟩

theorem EncodedForm.out (a : Operand) : EncodedForm.Statement (.out a) :=
  ⟨_, _, rfl, rfl, rfl, by simp⟩

theorem EncodedForm.inp (a : Operand) : EncodedForm.Statement (.inp a) :=
  ⟨_, _, rfl, rfl, rfl, by simp⟩

theorem EncodedForm.noop : EncodedForm.Statement .noop :=
  ⟨_, _, rfl, rfl, rfl, by simp⟩

end Sys2Proof.Laws
end

