-- ==== Sys2Proof/Tests/Slice0.lean ====
section
/-! SUPPORT. Tests. Expected results are the spec's own worked examples and vectors (95_test_vectors.md; the id stands before
each group), its opcode map (30_encoding.md R49) and operand ranges (R47). -/

namespace Sys2Proof.Tests

open Sys2Proof.Machine

/-! ### WellFormed refuses ill-formed terms -/

theorem test_wf_refuses_wide_literal : Instr.wf (.push (.lit 32768)) = false := by decide
theorem test_wf_refuses_wide_literal_b : Instr.wf (.jt (.lit 0) (.lit 65535)) = false := by decide
theorem test_wf_refuses_wide_literal_c : Instr.wf (.add (.reg 0) (.lit 1) (.lit 32776)) = false := by decide
theorem test_wf_refuses_literal_dst : Instr.wf (.set (.lit 5) (.lit 6)) = false := by decide
theorem test_wf_refuses_literal_dst_pop : Instr.wf (.pop (.lit 5)) = false := by decide
theorem test_wf_refuses_literal_dst_in : Instr.wf (.inp (.lit 5)) = false := by decide
theorem test_wf_accepts_literal_address : Instr.wf (.wmem (.lit 32767) (.reg 7)) = true := by decide
theorem test_wf_accepts_same_register : Instr.wf (.mod (.reg 2) (.reg 2) (.reg 2)) = true := by decide

/-! ### Decoding, from words written out bit by bit (R47: `0vvvvvvvvvvvvvvv`, `1000000000000iii`; R49: the code) -/

theorem test_decode_halt : decode [0b0000000000000000] = .instr .halt := by decide
theorem test_decode_set :
    decode [0b0000000000000001, 0b1000000000000000, 0b1000000000000001] = .instr (.set (.reg 0) (.reg 1)) := by decide
theorem test_decode_push : decode [0b0000000000000010, 0b1000000000000000] = .instr (.push (.reg 0)) := by decide
theorem test_decode_pop : decode [0b0000000000000011, 0b1000000000000111] = .instr (.pop (.reg 7)) := by decide
theorem test_decode_eq :
    decode [0b0000000000000100, 0b1000000000000011, 0b1000000000000000, 0b1000000000000001] =
      .instr (.eq (.reg 3) (.reg 0) (.reg 1)) := by decide
theorem test_decode_gt :
    decode [0b0000000000000101, 0b1000000000000010, 0b1000000000000000, 0b1000000000000001] =
      .instr (.gt (.reg 2) (.reg 0) (.reg 1)) := by decide
theorem test_decode_jmp : decode [0b0000000000000110, 0b0000000001100100] = .instr (.jmp (.lit 100)) := by decide
theorem test_decode_jt :
    decode [0b0000000000000111, 0b1000000000000000, 0b0000000000000110] = .instr (.jt (.reg 0) (.lit 6)) := by decide
theorem test_decode_jf :
    decode [0b0000000000001000, 0b1000000000000010, 0b0000000000010000] = .instr (.jf (.reg 2) (.lit 16)) := by decide
theorem test_decode_add :
    decode [0b0000000000001001, 0b1000000000000000, 0b0000000000000100, 0b0000000000000101] =
      .instr (.add (.reg 0) (.lit 4) (.lit 5)) := by decide
theorem test_decode_mult :
    decode [0b0000000000001010, 0b1000000000000011, 0b1000000000000010, 0b0000011111010000] =
      .instr (.mult (.reg 3) (.reg 2) (.lit 2000)) := by decide
theorem test_decode_mod :
    decode [0b0000000000001011, 0b1000000000000100, 0b1000000000000011, 0b0000000001100100] =
      .instr (.mod (.reg 4) (.reg 3) (.lit 100)) := by decide
theorem test_decode_and :
    decode [0b0000000000001100, 0b1000000000000110, 0b1000000000000101, 0b0000000011111111] =
      .instr (.and (.reg 6) (.reg 5) (.lit 255)) := by decide
theorem test_decode_or :
    decode [0b0000000000001101, 0b1000000000000111, 0b1000000000000110, 0b0000000100000000] =
      .instr (.or (.reg 7) (.reg 6) (.lit 256)) := by decide
theorem test_decode_not :
    decode [0b0000000000001110, 0b1000000000000101, 0b1000000000000100] = .instr (.not (.reg 5) (.reg 4)) := by decide
theorem test_decode_rmem :
    decode [0b0000000000001111, 0b1000000000000010, 0b0000000000000111] = .instr (.rmem (.reg 2) (.lit 7)) := by decide
theorem test_decode_wmem :
    decode [0b0000000000010000, 0b0000000001100100, 0b1000000000000001] = .instr (.wmem (.lit 100) (.reg 1)) := by decide
theorem test_decode_call : decode [0b0000000000010001, 0b0000000000000110] = .instr (.call (.lit 6)) := by decide
theorem test_decode_ret : decode [0b0000000000010010] = .instr .ret := by decide
theorem test_decode_out : decode [0b0000000000010011, 0b0000000001000001] = .instr (.out (.lit 65)) := by decide
theorem test_decode_in : decode [0b0000000000010100, 0b1000000000000001] = .instr (.inp (.reg 1)) := by decide
theorem test_decode_noop : decode [0b0000000000010101] = .instr .noop := by decide

/-! V-D2, V-D5, V-D6; V-X2 to V-X9, V-X11: the rejections, each with its kind and the words fetched. -/

theorem test_operand_largest_literal : decodeOperand 0x7FFF = .ok (.lit 32767) := by decide
theorem test_operand_last_register : decodeOperand 0x8007 = .ok (.reg 7) := by decide
theorem test_operand_first_invalid : decodeOperand 0x8008 = .error .invalidInstructionValue := by decide
theorem test_decode_22_is_no_opcode : decode [22] = .reject .invalidOpCode 1 := by decide
theorem test_decode_register_word_is_no_opcode : decode [32768] = .reject .invalidOpCode 1 := by decide
theorem test_decode_invalid_opcode_word : decode [32776] = .reject .invalidInstructionValue 1 := by decide
theorem test_decode_invalid_operand_b : decode [1, 32768, 40000] = .reject .invalidInstructionValue 3 := by decide
theorem test_decode_literal_dst_comes_first : decode [1, 5, 40000] = .reject .expectedRegisterOperand 2 := by decide
theorem test_decode_jt_checks_b : decode [7, 0, 40000] = .reject .invalidInstructionValue 3 := by decide
theorem test_decode_operand_past_memory : decode [2] = .reject .memoryAddressOutOfRange 1 := by decide

/-! The table word of a row (numbering of opcode_table.json): operand words of zeros. -/

theorem test_table_word_noop : decodeTableWord 16 21 = some .noop := by decide
theorem test_table_word_wmem : decodeTableWord 16 16 = some (.wmem (.lit 0) (.lit 0)) := by decide
theorem test_table_word_operand :
    decodeTableWord 48 (1 + 0x8003 * 2 ^ 16 + 7 * 2 ^ 32) = some (.set (.reg 3) (.lit 7)) := by decide
theorem test_asm_add : (Instr.add (.reg 0) (.reg 1) (.lit 4)).asm = "add r0, r1, 4" := by decide

/-! ### Steps -/

/-- A fresh machine with an image (46_host_interface.md R116), then a change of its registers or streams if any. -/
def machine (image : List Word) (change : State → State := id) : State :=
  change (State.reset.setMem (Memory.putWords [] 0 image))

/-- What one step answers. -/
def stepped (s : State) : Option State :=
  match step s with
  | .next t => some t
  | .fault _ => none
  | .refused _ => none

/-- One register, and ip, after one step. -/
def regAfter (d : Fin 8) (s : State) : Option (Word × Word) := (stepped s).map fun t => (t.reg d, t.ip)

/-- Status, ip and register 0 after one step. -/
def endAfter (s : State) : Option (Status × Word × Word) := (stepped s).map fun t => (t.status, t.ip, t.reg 0)

/-- V-A6, V-A49. -/
theorem test_set_copies_register : regAfter 6 (machine [1, 32774, 32768] (·.setReg 0 65535)) = some (65535, 3) := by decide
/-- S5. -/
theorem test_set_literal_dst : endAfter (machine [1, 5, 6]) = some (.failed .expectedRegisterOperand, 2, 0) := by decide
/-- V-S2. -/
theorem test_push_literal : (stepped (machine [2, 7, 0])).map (·.stack) = some [7] := by decide
/-- S9. -/
theorem test_push_register_on_top :
    (stepped (machine [2, 32768] fun s => (s.push 9).setReg 0 40000)).map (·.stack) = some [40000, 9] := by decide
/-- V-S1. -/
theorem test_pop_takes_the_top : regAfter 0 (machine [3, 32768] fun s => (s.push 7).push 8) = some (8, 2) := by decide
/-- V-S4: the operand is checked before the stack. -/
theorem test_pop_literal_dst_empty : endAfter (machine [3, 5]) = some (.failed .expectedRegisterOperand, 2, 0) := by decide
/-- R77: with reg[1] = 5. -/
theorem test_eq_equal : regAfter 0 (machine [4, 32768, 32769, 5] (·.setReg 1 5)) = some (1, 4) := by decide
/-- V-A46: bit 15 counts. -/
theorem test_eq_bit15 : regAfter 4 (machine [4, 32772, 32768, 0] (·.setReg 0 32768)) = some (0, 4) := by decide
/-- V-A12: strict. -/
theorem test_gt_equal : regAfter 0 (machine [5, 32768, 4, 4] (·.setReg 0 9)) = some (0, 4) := by decide
/-- V-A45: unsigned. -/
theorem test_gt_unsigned : regAfter 4 (machine [5, 32772, 32768, 32767] (·.setReg 0 65535)) = some (1, 4) := by decide
/-- V-C2. -/
theorem test_jmp_register : endAfter (machine [6, 32768] (·.setReg 0 4)) = some (.running, 4, 4) := by decide
/-- R91: reg[0] = 2. -/
theorem test_jt_taken : endAfter (machine [7, 32768, 6] (·.setReg 0 2)) = some (.running, 6, 2) := by decide
/-- V-C4. -/
theorem test_jt_not_taken : endAfter (machine [7, 0, 5]) = some (.running, 3, 0) := by decide
/-- V-C5. -/
theorem test_jf_taken : endAfter (machine [8, 0, 5]) = some (.running, 5, 0) := by decide
/-- R92: 32768 is not zero. -/
theorem test_jf_bit15_not_zero : endAfter (machine [8, 32768, 5] (·.setReg 0 32768)) = some (.running, 3, 32768) := by decide
/-- S2. -/
theorem test_add_wraps : regAfter 0 (machine [9, 32768, 32767, 5]) = some (4, 4) := by decide
/-- V-A42. -/
theorem test_add_wide_registers : regAfter 2 (machine [9, 32770, 32768, 32768] (·.setReg 0 65535)) = some (32766, 4) := by
  decide
/-- V-A15. -/
theorem test_mult_reduces : regAfter 0 (machine [10, 32768, 300, 300]) = some (24464, 4) := by decide
/-- V-A43. -/
theorem test_mult_wide_registers : regAfter 2 (machine [10, 32770, 32768, 32768] (·.setReg 0 65535)) = some (1, 4) := by
  decide
/-- V-A50: not reduced. -/
theorem test_mod_not_reduced :
    regAfter 2 (machine [11, 32770, 32768, 32769] fun s => (s.setReg 0 50000).setReg 1 60000) = some (50000, 4) := by decide
/-- V-A24. -/
theorem test_mod_by_zero : endAfter (machine [11, 32768, 5, 0]) = some (.failed .divisionByZero, 4, 0) := by decide
/-- V-A47. -/
theorem test_and_keeps_bit15 :
    regAfter 5 (machine [12, 32773, 32768, 32769] fun s => (s.setReg 0 65535).setReg 1 32768) = some (32768, 4) := by decide
/-- V-A48. -/
theorem test_or_keeps_bit15 : regAfter 5 (machine [13, 32773, 32768, 1] (·.setReg 0 32768)) = some (32769, 4) := by decide
/-- V-A32. -/
theorem test_not_pattern : regAfter 0 (machine [14, 32768, 21845]) = some (10922, 3) := by decide
/-- V-A40: bit 15 kept. -/
theorem test_not_keeps_bit15 : regAfter 1 (machine [14, 32769, 32768] (·.setReg 0 65535)) = some (32768, 3) := by decide
/-- V-M3: an invalid word loads as data. -/
theorem test_rmem_invalid_word : regAfter 0 (machine [15, 32768, 4, 0, 65535]) = some (65535, 3) := by decide
/-- V-M8: 40000 as an address. -/
theorem test_rmem_out_of_range :
    endAfter (machine [15, 32769, 32768] (·.setReg 0 40000)) = some (.failed .memoryAddressOutOfRange, 3, 40000) := by decide
/-- V-M10: operand a is an address, not register 0. -/
theorem test_wmem_register_indirect :
    (stepped (machine [16, 32768, 5])).map (fun t => (t.mem.read 0, t.reg 0)) = some (some 5, 0) := by decide
/-- V-M9: no wrap to address 0. -/
theorem test_wmem_out_of_range :
    (stepped (machine [16, 32768, 1] (·.setReg 0 32768))).map (fun t => (t.status, t.mem.read 0)) =
      some (.failed .memoryAddressOutOfRange, some 16) := by decide
/-- R93. -/
theorem test_call_pushes_p_plus_2 : (stepped (machine [17, 6])).map (fun t => (t.stack, t.ip)) = some ([2], 6) := by decide
/-- V-C9, R94. -/
theorem test_ret_pops : (stepped (machine [18] (·.push 5))).map (fun t => (t.stack, t.ip)) = some ([], 5) := by decide
/-- V-C8. -/
theorem test_ret_empty : endAfter (machine [18]) = some (.failed .stackUnderflow, 1, 0) := by decide
/-- V-I2: 321 = 256 + 65. -/
theorem test_out_low_byte : (stepped (machine [19, 321])).map (·.output) = some [65] := by decide
/-- V-I3. -/
theorem test_in_reads_a_byte :
    (stepped (machine [20, 32769] (·.supply [.byte 104]))).map (fun t => (t.reg 1, t.input)) = some (104, []) := by decide
/-- V-I5: nothing consumed. -/
theorem test_in_literal_dst :
    (stepped (machine [20, 5] (·.supply [.byte 1, .byte 2]))).map (fun t => (t.status, t.input)) =
      some (.failed .expectedRegisterOperand, [.byte 1, .byte 2]) := by decide
/-- V-I7: no response. -/
theorem test_in_waits : stepped (machine [20, 32768]) = some (machine [20, 32768]) := by decide
/-- V-I4. -/
theorem test_in_fails : endAfter (machine [20, 32768] (·.supply [.fail])) = some (.failed .inputReadFailure, 2, 0) := by
  decide
/-- V-X1: no image. -/
theorem test_halt : endAfter State.reset = some (.halted, 1, 0) := by decide
/-- V-C13. -/
theorem test_noop : endAfter (machine [21]) = some (.running, 1, 0) := by decide
/-- V-X10: a fetch at 32768. -/
theorem test_fetch_past_memory :
    endAfter (machine [21] (·.setIp 32768)) = some (.failed .memoryAddressOutOfRange, 32768, 0) := by decide
/-- V-X11: the operand would lie at 32768. -/
theorem test_operand_fetch_past_memory :
    endAfter ((State.reset.setMem [(32767, 2)]).setIp 32767) = some (.failed .memoryAddressOutOfRange, 32768, 0) := by decide
/-- V-M5: a store into the next opcode word. -/
theorem test_store_is_fetched_next :
    (stepped (machine [16, 3, 0, 99])).map (fun t => decode t.window) = some (.instr .halt) := by decide

/-! ### The host interface -/

/-- V-H4. -/
theorem test_image_file :
    imageOfBytes [0x09, 0x00, 0x00, 0x80, 0x04, 0x00, 0x05, 0x00, 0x15, 0x00] = some [9, 32768, 4, 5, 21] := by decide
/-- S8. -/
theorem test_image_bytes : imageBytes [19, 65, 0] = [0x13, 0x00, 0x41, 0x00, 0x00, 0x00] := by decide
/-- S8: `out 65`, `halt`, from its file to the outcome. -/
theorem test_scenario_b :
    (match bootFile [0x13, 0x00, 0x41, 0x00, 0x00, 0x00] with
      | .next s => ((runSteps 2 s).outcome, (runSteps 2 s).output, (runSteps 2 s).ip)
      | .fault _ => (none, [], 0)
      | .refused _ => (none, [], 0)) = (some .halted, [65], 3) := by decide

/-! ### Witnesses

For every statement of Certificates/Slice0/Obligations.lean that has hypotheses, a concrete state and operands that meet them,
each clause at boundary values of its range. -/

theorem witness_OperandWordsFallInThreeRanges :
    (0x0000#16).toNat ≤ 32767 ∧ (0x7FFF#16).toNat ≤ 32767 ∧
    (0x8000#16).toNat = 32768 + (0 : Fin 8).val ∧ (0x8007#16).toNat = 32768 + (7 : Fin 8).val ∧
    32776 ≤ (0x8008#16).toNat ∧ 32776 ≤ (0xFFFF#16).toNat := by decide

theorem witness_DecodeOfEncodeIsTheInstruction :
    Instr.wf (.add (.reg 7) (.lit 32767) (.reg 0)) = true ∧ Instr.wf (.wmem (.lit 0) (.lit 32767)) = true ∧
    Instr.wf .ret = true := by decide

theorem witness_DecodedWordsBeginWithTheEncoding :
    decode [9, 32775, 32767, 0, 77] = .instr (.add (.reg 7) (.lit 32767) (.lit 0)) ∧
    decode [1, 5, 6] = .instr (.set (.lit 5) (.lit 6)) := by decide

theorem witness_LengthIsFixedByTheOpcodeWord :
    decode [21] = .instr .noop ∧ decode [20, 32768] = .instr (.inp (.reg 0)) ∧
    decode [16, 0, 32767] = .instr (.wmem (.lit 0) (.lit 32767)) ∧
    decode [13, 32775, 0, 0] = .instr (.or (.reg 7) (.lit 0) (.lit 0)) := by decide

theorem witness_StepRunsTheDecodedInstruction :
    (machine [1, 32768, 5]).status = .running ∧
    decode (machine [1, 32768, 5]).window = .instr (.set (.reg 0) (.lit 5)) ∧
    decode (machine [3, 5]).window = .instr (.pop (.lit 5)) ∧
    decode ((State.reset.setMem [(32767, 18)]).setIp 32767).window = .instr .ret := by decide

theorem witness_OpcodeFetchFaultsInOrder :
    32768 ≤ (State.reset.setIp 32768).ip.toNat ∧ 32768 ≤ (State.reset.setIp 65535).ip.toNat ∧
    (machine [32776]).mem.read 0 = some 32776 ∧ (machine [65535]).mem.read 0 = some 65535 ∧
    (machine [22]).mem.read 0 = some 22 ∧ (machine [32775]).mem.read 0 = some 32775 ∧
    (machine [21]).mem.read 0 = some 21 ∧ (machine [21]).status = .running ∧ (machine [21]).ip = 0 ∧
    State.reset.mem.read State.reset.ip = some 0 := by decide

theorem witness_InvalidOpCodeExactlyForUnusedCodes :
    (machine [22]).mem.read (machine [22]).ip = some 22 ∧ (machine [32775]).mem.read (machine [32775]).ip = some 32775 ∧
    (stepped (machine [22])).map (fun t => (t.status, t.ip)) = some (.failed .invalidOpCode, 1) ∧
    (stepped (machine [32775])).map (fun t => (t.status, t.ip)) = some (.failed .invalidOpCode, 1) ∧
    (stepped (machine [32776])).map (fun t => (t.status, t.ip)) = some (.failed .invalidInstructionValue, 1) ∧
    (stepped (machine [21])).map (fun t => (t.status, t.ip)) = some (.running, 1) := by decide

/-- For the four statements ...StepsFollowTheirPseudocode: every opcode word. -/
theorem witness_StepsFollowTheirPseudocode :
    ∀ n : Fin 22, OpcodeAt (BitVec.ofNat 16 n.val) (machine [BitVec.ofNat 16 n.val]) := by
  unfold OpcodeAt
  decide

theorem witness_ModIsTheRemainderOrDivisionByZero :
    State.reset.resolve (.lit 1) ≠ 0 ∧ (State.reset.setReg 7 65535).resolve (.reg 7) ≠ 0 ∧
    State.reset.resolve (.lit 0) = 0 ∧ State.reset.resolve (.reg 7) = 0 := by decide

/-- And for RetPopsIntoTheInstructionPointer, which has the same two hypotheses. -/
theorem witness_PopMovesTheTopEntry :
    (State.reset.push 65535).stack = 65535 :: [] ∧ ((State.reset.push 1).push 0).stack = 0 :: [1] ∧
    State.reset.stack = [] := by decide

theorem witness_RmemLoadsTheWholeCell :
    (State.reset.resolve (.lit 0)).toNat ≤ 32767 ∧ (State.reset.resolve (.lit 32767)).toNat ≤ 32767 ∧
    32768 ≤ ((State.reset.setReg 0 32768).resolve (.reg 0)).toNat ∧
    32768 ≤ ((State.reset.setReg 0 65535).resolve (.reg 0)).toNat := by decide

theorem witness_WmemStoresAtTheResolvedAddress :
    (machine [16, 32767, 1]).mem.wf = true ∧ ((machine [16, 32767, 1]).resolve (.lit 32767)).toNat ≤ 32767 ∧
    (machine [] (·.setReg 0 32767)).mem.wf = true ∧ ((machine [] (·.setReg 0 32767)).resolve (.reg 0)).toNat ≤ 32767 ∧
    32768 ≤ ((State.reset.setReg 0 32768).resolve (.reg 0)).toNat := by decide

theorem witness_InReadsOneByte :
    (State.reset.supply [.byte 0]).input = .byte 0 :: [] ∧
    (State.reset.supply [.byte 255, .fail]).input = .byte 255 :: [.fail] ∧
    (State.reset.supply [.fail]).input = .fail :: [] ∧ State.reset.input = [] := by decide

theorem witness_ResetClearsMemoryAndStartsAtZero :
    (0x7FFF#16).toNat ≤ 32767 ∧
    (∃ t, loadImage [21] State.reset = .next t ∧ [(21 : Word)].length ≤ (1#16).toNat ∧ (1#16).toNat ≤ 32767) ∧
    State.reset.status = .running ∧ State.reset.mem.read State.reset.ip = some 0 := by
  exact ⟨by decide, ⟨_, loadImage_fresh (by decide) (by decide), by decide, by decide⟩, rfl, by decide⟩

theorem witness_EveryStepKeepsMemoryCanonical :
    (machine [16, 2, 0]).mem.wf = true ∧
    (stepped (machine [16, 2, 0])).map (·.mem) = some [(0, 16), (1, 2)] := by decide

theorem witness_TerminalStatesNeverChange :
    State.reset.halt.status ≠ .running ∧ (State.reset.fail .stackUnderflow).status ≠ .running := by decide

theorem witness_RunHasOneOutcome :
    RunsTo State.reset .halted (runSteps 1 State.reset) ∧ RunsTo State.reset .halted (runSteps 5 State.reset) ∧
    RunsTo (machine [18]) (.failed .stackUnderflow) (runSteps 1 (machine [18])) :=
  ⟨⟨1, rfl, by decide⟩, ⟨5, rfl, by decide⟩, ⟨1, rfl, by decide⟩⟩

theorem witness_OnlyHaltEndsSuccessfully :
    endAfter State.reset = some (.halted, 1, 0) ∧ endAfter (machine [21]) = some (.running, 1, 0) ∧
    endAfter (machine [18]) = some (.failed .stackUnderflow, 1, 0) ∧
    (∀ s ∈ [State.reset, machine [21], machine [18]], s.status = .running) := by decide

theorem witness_OnlyTheDestinationRegisterChanges :
    (∃ t, exec (.add (.reg 0) (.lit 1) (.lit 2)) State.reset = .next t ∧
      writtenReg (.add (.reg 0) (.lit 1) (.lit 2)) ≠ some 7 ∧ t.reg 0 = 3) ∧
    (∃ t, exec (.jmp (.reg 0)) State.reset = .next t ∧ writtenReg (.jmp (.reg 0)) ≠ some 0) ∧
    (∃ t, exec (.pop (.lit 3)) State.reset = .next t ∧ writtenReg (.pop (.lit 3)) ≠ some 3) :=
  ⟨⟨_, rfl, by decide, by decide⟩, ⟨_, rfl, by decide⟩, ⟨_, rfl, by decide⟩⟩

theorem witness_MemoryIsTouchedByRmemWmemAndLoadingOnly :
    (∃ t, exec (.push (.lit 5)) State.reset = .next t ∧ (∀ a b, (.push (.lit 5) : Instr) ≠ .wmem a b) ∧
      ∀ a b, (.push (.lit 5) : Instr) ≠ .rmem a b) ∧
    (∃ t, exec (.rmem (.reg 0) (.lit 5)) State.reset = .next t ∧ ∀ a b, (.rmem (.reg 0) (.lit 5) : Instr) ≠ .wmem a b) ∧
    ∃ t, loadImage [1, 65535] State.reset = .next t ∧ t.mem = [(0, 1), (1, 65535)] :=
  ⟨⟨_, rfl, nofun, nofun⟩, ⟨_, rfl, nofun⟩, ⟨_, rfl, by decide⟩⟩

/-- And for StackUnderflowExactlyOnAnEmptyStack. -/
theorem witness_StackMovesByOneEntry :
    (∃ t, exec (.push (.lit 5)) State.reset = .next t ∧ t.stack = [5]) ∧
    (∃ t, exec (.call (.lit 5)) State.reset = .next t ∧ t.stack = [2]) ∧
    (∃ t, exec (.pop (.reg 0)) (State.reset.push 9) = .next t ∧ t.stack = []) ∧
    (∃ t, exec .ret (State.reset.push 9) = .next t ∧ t.stack = [] ∧ t.status = .running) ∧
    (∃ t, exec .ret State.reset = .next t ∧ State.reset.stack = [] ∧ t.status = .failed .stackUnderflow) ∧
    (∃ t, exec (.pop (.reg 7)) State.reset = .next t ∧ t.status = .failed .stackUnderflow) ∧
    State.reset.status = .running :=
  ⟨⟨_, rfl, rfl⟩, ⟨_, rfl, rfl⟩, ⟨_, rfl, rfl⟩, ⟨_, rfl, rfl, rfl⟩, ⟨_, rfl, rfl, rfl⟩, ⟨_, rfl, rfl⟩, rfl⟩

theorem witness_DeeperStackEntriesAreInvisible :
    (∃ t, exec .ret (State.reset.push 9) = .next t ∧ (State.reset.push 9).stack ≠ []) ∧
    ∃ t, exec (.push (.lit 1)) State.reset = .next t ∧ (∀ a, (.push (.lit 1) : Instr) ≠ .pop a) ∧
      (.push (.lit 1) : Instr) ≠ .ret :=
  ⟨⟨_, rfl, by decide⟩, ⟨_, rfl, nofun, nofun⟩⟩

theorem witness_OutputIsAppendedAndNeverRead :
    (∃ t, step (machine [19, 65]) = .next t ∧ (machine [19, 65]).decoded = .instr (.out (.lit 65)) ∧ t.output = [65]) ∧
    (∃ t, step (machine [21]) = .next t ∧ (machine [21]).decoded = .instr .noop) ∧
    ∃ t, step (machine [19, 65] (·.halt)) = .next t ∧ t.output = [] :=
  ⟨⟨_, rfl, by decide, by decide⟩, ⟨_, rfl, by decide⟩, ⟨_, rfl, by decide⟩⟩

theorem witness_UnreadInputChangesNothing :
    ∀ m, m < 2 → (runSteps m (machine [20, 32768, 20, 32769] (·.supply [.byte 1, .byte 2]))).waiting = false := by decide

theorem witness_StepsThatChangeNothingWaitOrLoop :
    (machine [20, 32768]).waiting = true ∧
    (∀ s ∈ [machine [6, 0], machine [7, 1, 0], machine [8, 0, 0], machine [20, 32768]],
      s.status = .running ∧ stepped s = some s) := by decide

theorem witness_FaultsArePrecise :
    (∃ t, step (machine [18]) = .next t ∧ t.status = .failed .stackUnderflow) ∧
    (∃ t, step (machine [20, 32768] (·.supply [.fail])) = .next t ∧ t.status = .failed .inputReadFailure) ∧
    (machine [18]).status = .running :=
  ⟨⟨_, rfl, by decide⟩, ⟨_, rfl, by decide⟩, rfl⟩

theorem witness_ExpectedRegisterExactlyForLiteralDst :
    dstOperand (.inp (.lit 0)) = some (.lit 0) ∧ dstOperand (.rmem (.lit 32767) (.reg 0)) = some (.lit 32767) ∧
    ∃ t, exec (.set (.lit 5) (.lit 6)) State.reset = .next t ∧ State.reset.status = .running ∧
      t.status = .failed .expectedRegisterOperand :=
  ⟨rfl, rfl, ⟨_, rfl, rfl, rfl⟩⟩

theorem witness_InputReadFailureExactlyOnFail :
    (∃ t, exec (.inp (.reg 0)) (State.reset.supply [.fail]) = .next t ∧
      (State.reset.supply [.fail]).input.head? = some .fail ∧ t.status = .failed .inputReadFailure) ∧
    (∃ t, exec (.inp (.reg 0)) (State.reset.supply [.byte 0]) = .next t ∧ t.status = .running) ∧
    (State.reset.supply [.fail]).status = .running :=
  ⟨⟨_, rfl, rfl, rfl⟩, ⟨_, rfl, rfl⟩, rfl⟩

theorem witness_AddressAndDivisorFaultsExactlyThere :
    (∃ t, exec (.rmem (.reg 0) (.reg 1)) (State.reset.setReg 1 32768) = .next t ∧
      t.status = .failed .memoryAddressOutOfRange) ∧
    (∃ t, exec (.wmem (.reg 1) (.lit 0)) (State.reset.setReg 1 65535) = .next t ∧
      t.status = .failed .memoryAddressOutOfRange) ∧
    (∃ t, exec (.wmem (.lit 32767) (.lit 0)) State.reset = .next t ∧ t.status = .running) ∧
    (∃ t, exec (.mod (.reg 0) (.lit 5) (.reg 1)) State.reset = .next t ∧ t.status = .failed .divisionByZero) ∧
    ∃ t, exec (.mod (.reg 0) (.lit 5) (.lit 1)) State.reset = .next t ∧ t.status = .running :=
  ⟨⟨_, rfl, rfl⟩, ⟨_, rfl, rfl⟩, ⟨_, rfl, rfl⟩, ⟨_, rfl, rfl⟩, ⟨_, rfl, rfl⟩⟩

theorem witness_IpNeverRunsPastMemory :
    (∃ t, step ((State.reset.setMem [(32767, 21)]).setIp 32767) = .next t ∧ t.ip = 32768) ∧
    (∃ t, step (machine [6, 32768] (·.setReg 0 65535)) = .next t ∧ t.ip = 65535) ∧
    (∃ t, step (machine [18] (·.push 65535)) = .next t ∧ t.ip = 65535) ∧
    ((State.reset.setMem [(32767, 21)]).setIp 32767).ip.toNat ≤ 32767 :=
  ⟨⟨_, rfl, by decide⟩, ⟨_, rfl, by decide⟩, ⟨_, rfl, by decide⟩, by decide⟩

/-- A store into the next word; then, after one step (`noop` at address 3), a store seen at address 4. -/
theorem witness_StoreIsSeenByEveryLaterFetch :
    (∃ t, exec (.wmem (.lit 3) (.lit 0)) State.reset = .next t ∧ State.reset.resolve (.lit 3) = State.reset.ip + 3 ∧
      (State.reset.resolve (.lit 3)).toNat ≤ 32767 ∧ State.reset.mem.wf = true) ∧
    (∃ t, exec (.wmem (.lit 4) (.lit 9)) (machine [16, 4, 9, 21]) = .next t ∧ t.decoded = .instr .noop ∧
      (runSteps 1 t).ip = 4 ∧ (machine [16, 4, 9, 21]).mem.wf = true) ∧
    (∀ x y, (.instr .noop : Decoded) ≠ .instr (.wmem x y)) :=
  ⟨⟨_, rfl, by decide, by decide, by decide⟩, ⟨_, rfl, by decide, by decide, by decide⟩, nofun⟩

/-- The same program; the load's address operand is a register that holds 4. -/
theorem witness_LoadReturnsTheLastStoredWord :
    ∃ t, exec (.wmem (.lit 4) (.lit 9)) (machine [16, 4, 9, 21] (·.setReg 2 4)) = .next t ∧
      (machine [16, 4, 9, 21] (·.setReg 2 4)).mem.wf = true ∧
      t.decoded = .instr .noop ∧ (runSteps 1 t).resolve (.reg 2) = 4 :=
  ⟨_, rfl, by decide, by decide, by decide⟩

theorem witness_LoadImageWritesTheImageFromZero :
    (List.replicate 32768 (7 : Word)).length ≤ 32768 ∧ 32768 < (List.replicate 32769 (7 : Word)).length ∧
    State.reset.fresh = true ∧ (State.reset.supply [.byte 1]).fresh = true ∧ (machine [21]).fresh = false := by
  exact ⟨by simp only [List.length_replicate, le_refl], by simp only [List.length_replicate]; omega, by decide, by decide, by decide⟩

/-- An image of one zero and an empty image, each loaded once, refused a second time; and a load after the first step. -/
theorem witness_ImageIsLoadedAtMostOnceBeforeRun :
    (∃ t, loadImage [0] State.reset = .next t ∧ t.mem = [] ∧ t.fresh = false) ∧
    (∃ t, loadImage [] State.reset = .next t ∧ loadImage [7] t = .refused .imageLoadedLate) ∧
    (State.reset.fresh = true ∧ loadImage [7] (runSteps 1 State.reset) = .refused .imageLoadedLate) ∧
    ∃ t, exec .noop State.reset = .next t ∧ t.loaded = false :=
  ⟨⟨_, loadImage_fresh (by decide) (by decide), by decide, by decide⟩, ⟨_, loadImage_fresh (by decide) (by decide), rfl⟩,
    ⟨by decide, rfl⟩, ⟨_, rfl, rfl⟩⟩

theorem witness_PlacedInstructionRunsNext :
    State.reset.mem.wf = true ∧ decodeTableWord 16 0 = some .halt ∧
    decodeTableWord 64 (13 + 0x8007 * 2 ^ 16 + 32767 * 2 ^ 32 + 0x8000 * 2 ^ 48) =
      some (.or (.reg 7) (.lit 32767) (.reg 0)) := by decide

end Sys2Proof.Tests
end

section
/-! ### The output stream and reset (10_state.md R22, R24, R26) -/

namespace Sys2Proof.Machine

/-! #### What a step appends to the output -/

/-- An instruction other than `out` leaves the output as it was. -/
theorem Effect.output_of_ne_out {i : Instr} {s t : State} (he : Effect i s t) (hi : ∀ a, i ≠ .out a) :
    t.output = s.output := by
  cases he with
  | emit a h => exact absurd h (hi a)
  | _ => rfl

/-- A Running machine at an `out` appends the low byte of the operand's value. -/
theorem step_output_of_out {s t : State} {a : Operand} (hs : s.status = .running) (hd : s.decoded = .instr (.out a))
    (h : step s = .next t) : t.output = s.output ++ [lowByte (s.resolve a)] := by
  rw [step_running hs, hd] at h
  exact next_inj h ▸ rfl

/-- A step taken anywhere else appends nothing. -/
theorem step_output_of_ne_out {s t : State} (hd : ∀ a, s.status = .running → s.decoded ≠ .instr (.out a))
    (h : step s = .next t) : t.output = s.output := by
  by_cases hs : s.status = .running
  · obtain ⟨i, hi, he⟩ | ⟨k, n, _, rfl⟩ := step_cases hs h
    · exact he.output_of_ne_out fun a ha => hd a hs (ha ▸ hi)
    · rfl
  · rw [step_terminal hs] at h
    exact next_inj h ▸ rfl

/-! #### Bytes already in the output -/

/-- The state with `before` in front of the bytes of the output stream. -/
def State.prependOutput (s : State) (before : List Byte) : State := { s with output := before ++ s.output }

@[simp] theorem State.prependOutput_resolve (s : State) (before : List Byte) (op : Operand) :
    (s.prependOutput before).resolve op = s.resolve op := by
  cases op <;> rfl

theorem State.outByte_prependOutput (s : State) (before : List Byte) (b : Byte) :
    (s.prependOutput before).outByte b = (s.outByte b).prependOutput before := by
  simp [State.outByte, State.prependOutput]

/-- `f` answers a next state, and bytes put in front of the output beforehand are put in front of it there and change
nothing else. -/
def IgnoresOutput (f : State → Result) : Prop :=
  ∀ (before : List Byte) (s : State),
    ∃ t, f s = .next t ∧ f (s.prependOutput before) = .next (t.prependOutput before)

theorem aluTwo_ignoresOutput (f : Word → Word) (a b : Operand) : IgnoresOutput (aluTwo f a b) := by
  intro before s
  cases a with
  | lit v => exact ⟨_, rfl, rfl⟩
  | reg d => exact ⟨_, rfl, by rw [aluTwo_reg, State.prependOutput_resolve]; rfl⟩

theorem aluThree_ignoresOutput (f : Word → Word → Word) (a b c : Operand) : IgnoresOutput (aluThree f a b c) := by
  intro before s
  cases a with
  | lit v => exact ⟨_, rfl, rfl⟩
  | reg d => exact ⟨_, rfl, by rw [aluThree_reg, State.prependOutput_resolve, State.prependOutput_resolve]; rfl⟩

theorem execMod_ignoresOutput (a b c : Operand) : IgnoresOutput (execMod a b c) := by
  intro before s
  cases a with
  | lit v => exact ⟨_, rfl, rfl⟩
  | reg d =>
    have hc := s.prependOutput_resolve before c
    by_cases h : s.resolve c = 0
    · exact ⟨_, execMod_zero d b h, execMod_zero d b (hc.trans h)⟩
    · refine ⟨_, execMod_nonzero d b h, ?_⟩
      rw [execMod_nonzero d b (hc ▸ h), hc, State.prependOutput_resolve]
      rfl

theorem execPop_ignoresOutput (a : Operand) : IgnoresOutput (execPop a) := by
  intro before s
  cases a with
  | lit v => exact ⟨_, rfl, rfl⟩
  | reg d =>
    cases h : s.stack with
    | nil => exact ⟨_, execPop_empty d h, execPop_empty (s := s.prependOutput before) d h⟩
    | cons v rest => exact ⟨_, execPop_cons d h, execPop_cons (s := s.prependOutput before) d h⟩

theorem execRet_ignoresOutput : IgnoresOutput execRet := by
  intro before s
  cases h : s.stack with
  | nil => exact ⟨_, execRet_empty h, execRet_empty (s := s.prependOutput before) h⟩
  | cons v rest => exact ⟨_, execRet_cons h, execRet_cons (s := s.prependOutput before) h⟩

theorem execRmem_ignoresOutput (a b : Operand) : IgnoresOutput (execRmem a b) := by
  intro before s
  cases a with
  | lit v => exact ⟨_, rfl, rfl⟩
  | reg d =>
    have hb : (s.prependOutput before).mem.read ((s.prependOutput before).resolve b) = s.mem.read (s.resolve b) := by
      rw [State.prependOutput_resolve]; rfl
    cases h : s.mem.read (s.resolve b) with
    | none => exact ⟨_, execRmem_none d h, execRmem_none d (hb.trans h)⟩
    | some v => exact ⟨_, execRmem_some d h, execRmem_some d (hb.trans h)⟩

theorem execWmem_ignoresOutput (a b : Operand) : IgnoresOutput (execWmem a b) := by
  intro before s
  have hab : (s.prependOutput before).mem.write ((s.prependOutput before).resolve a)
      ((s.prependOutput before).resolve b) = s.mem.write (s.resolve a) (s.resolve b) := by
    rw [State.prependOutput_resolve, State.prependOutput_resolve]; rfl
  cases h : s.mem.write (s.resolve a) (s.resolve b) with
  | none => exact ⟨_, execWmem_none h, execWmem_none (hab.trans h)⟩
  | some m => exact ⟨_, execWmem_some h, execWmem_some (hab.trans h)⟩

theorem execIn_ignoresOutput (a : Operand) : IgnoresOutput (execIn a) := by
  intro before s
  cases a with
  | lit v => exact ⟨_, rfl, rfl⟩
  | reg d =>
    rcases h : s.input with _ | ⟨_ | _, rest⟩
    · exact ⟨_, execIn_wait d h, execIn_wait (s := s.prependOutput before) d h⟩
    · exact ⟨_, execIn_byte d h, execIn_byte (s := s.prependOutput before) d h⟩
    · exact ⟨_, execIn_fail d h, execIn_fail (s := s.prependOutput before) d h⟩

theorem execPush_ignoresOutput (a : Operand) : IgnoresOutput (execPush a) := fun before s =>
  ⟨_, rfl, by rw [execPush, State.prependOutput_resolve]; rfl⟩

theorem execJmp_ignoresOutput (a : Operand) : IgnoresOutput (execJmp a) := fun before s =>
  ⟨_, rfl, by rw [execJmp, State.prependOutput_resolve]; rfl⟩

theorem execCall_ignoresOutput (a : Operand) : IgnoresOutput (execCall a) := fun before s =>
  ⟨_, rfl, by rw [execCall, State.prependOutput_resolve]; rfl⟩

theorem jumpIf_ignoresOutput (taken : Bool) (target : Word) : IgnoresOutput (jumpIf taken target) := by
  intro before s
  cases taken <;> exact ⟨_, rfl, rfl⟩

theorem execJt_ignoresOutput (a b : Operand) : IgnoresOutput (execJt a b) := by
  intro before s
  rw [execJt, execJt, State.prependOutput_resolve, State.prependOutput_resolve]
  exact jumpIf_ignoresOutput _ _ before s

theorem execJf_ignoresOutput (a b : Operand) : IgnoresOutput (execJf a b) := by
  intro before s
  rw [execJf, execJf, State.prependOutput_resolve, State.prependOutput_resolve]
  exact jumpIf_ignoresOutput _ _ before s

theorem execOut_ignoresOutput (a : Operand) : IgnoresOutput (execOut a) := by
  intro before s
  refine ⟨_, rfl, ?_⟩
  rw [execOut, State.prependOutput_resolve]
  exact congrArg _ (State.outByte_prependOutput (s.advance 2) before _)

/-- No instruction reads the output stream (R22). -/
theorem exec_ignoresOutput (i : Instr) : IgnoresOutput (exec i) := by
  cases i with
  | halt => exact fun _ _ => ⟨_, rfl, rfl⟩
  | set a b => exact aluTwo_ignoresOutput (fun x => x) a b
  | push a => exact execPush_ignoresOutput a
  | pop a => exact execPop_ignoresOutput a
  | eq a b c => exact aluThree_ignoresOutput _ a b c
  | gt a b c => exact aluThree_ignoresOutput _ a b c
  | jmp a => exact execJmp_ignoresOutput a
  | jt a b => exact execJt_ignoresOutput a b
  | jf a b => exact execJf_ignoresOutput a b
  | add a b c => exact aluThree_ignoresOutput _ a b c
  | mult a b c => exact aluThree_ignoresOutput _ a b c
  | mod a b c => exact execMod_ignoresOutput a b c
  | and a b c => exact aluThree_ignoresOutput _ a b c
  | or a b c => exact aluThree_ignoresOutput _ a b c
  | not a b => exact aluTwo_ignoresOutput _ a b
  | rmem a b => exact execRmem_ignoresOutput a b
  | wmem a b => exact execWmem_ignoresOutput a b
  | call a => exact execCall_ignoresOutput a
  | ret => exact execRet_ignoresOutput
  | out a => exact execOut_ignoresOutput a
  | inp a => exact execIn_ignoresOutput a
  | noop => exact fun _ _ => ⟨_, rfl, rfl⟩

theorem runDecoded_ignoresOutput (d : Decoded) : IgnoresOutput (runDecoded d) := by
  cases d with
  | instr i => exact exec_ignoresOutput i
  | reject k n => exact fun _ _ => ⟨_, rfl, rfl⟩

/-- The words at ip and the status do not depend on the output, so neither does what the step runs. -/
theorem step_ignoresOutput : IgnoresOutput step := by
  intro before s
  by_cases hs : s.status = .running
  · rw [step_running hs, step_running (s := s.prependOutput before) hs]
    exact runDecoded_ignoresOutput s.decoded before s
  · exact ⟨s, step_terminal hs, step_terminal (s := s.prependOutput before) hs⟩

theorem runSteps_prependOutput (n : Nat) (s : State) (before : List Byte) :
    runSteps n (s.prependOutput before) = (runSteps n s).prependOutput before := by
  induction n generalizing s with
  | zero => rfl
  | succ n ih =>
    obtain ⟨t, ht, ht'⟩ := step_ignoresOutput before s
    rw [runSteps_succ n ht, runSteps_succ n ht', ih]

/-- Settles O46: the branches of the step for what it appends, and an induction over the number of steps for what it
does not read. -/
theorem outputIsAppendedAndNeverRead : Obligations.OutputIsAppendedAndNeverRead := by
  refine ⟨rfl, fun s t h => ?_, runSteps_prependOutput⟩
  by_cases hout : s.status = .running ∧ ∃ a, s.decoded = .instr (.out a)
  · obtain ⟨hs, a, ha⟩ := hout
    exact .inl ⟨hs, ⟨a, ha⟩, _, step_output_of_out hs ha h⟩
  · have hn : ∀ a, s.status = .running → s.decoded ≠ .instr (.out a) := fun a hs ha => hout ⟨hs, a, ha⟩
    exact .inr ⟨hn, step_output_of_ne_out hn h⟩

/-! #### Memory after reset -/

theorem reset_read {a : Word} (ha : a.toNat ≤ 32767) : State.reset.mem.read a = some 0 :=
  Memory.read_of_lt (Nat.lt_succ_of_le ha)

/-- A cell behind the image is still 0 after LoadImage. -/
theorem loadImage_reset_read {image : List Word} {t : State} {a : Word} (h : loadImage image State.reset = .next t)
    (hi : image.length ≤ a.toNat) (ha : a.toNat ≤ 32767) : t.mem.read a = some 0 := by
  obtain ⟨_, _, rfl⟩ := loadImage_eq_next h
  rw [State.markLoaded_mem, State.setMem_mem, Memory.read_of_lt (Nat.lt_succ_of_le ha),
    Memory.get_putWords image 0 (m := State.reset.mem) rfl, dif_neg (by omega)]
  rfl

/-- A Running machine at the word 0 executes `halt`. -/
theorem step_of_read_zero {s : State} (hs : s.status = .running) (hw : s.mem.read s.ip = some 0) :
    step s = .next (s.advance 1).halt :=
  step_none (i := .halt) hs hw rfl

/-- Settles O34, by what a load writes and by the opcode map's row of 0. -/
theorem resetClearsMemoryAndStartsAtZero : Obligations.ResetClearsMemoryAndStartsAtZero :=
  ⟨fun _ => reset_read, fun _ _ _ => loadImage_reset_read, fun _ hs hw => ⟨_, step_of_read_zero hs hw, rfl⟩, rfl, rfl⟩

end Sys2Proof.Machine
end

section
/-! ### Stores are seen by later fetches (20_memory.md R35, R40) -/

namespace Sys2Proof.Machine

/-! #### What an instruction and a step do to memory -/

/-- An instruction leaves memory as it was, or it is a `wmem` and memory is what its write gives. -/
theorem Effect.mem_cases {i : Instr} {s t : State} (he : Effect i s t) :
    t.mem = s.mem ∨ ∃ a b, i = .wmem a b ∧ s.mem.write (s.resolve a) (s.resolve b) = some t.mem := by
  cases he with
  | store a b m hi hm => exact .inr ⟨a, b, hi, hm⟩
  | _ => exact .inl rfl

theorem step_mem_cases {s t : State} (h : step s = .next t) :
    t.mem = s.mem ∨ ∃ a b, s.decoded = .instr (.wmem a b) ∧
      s.mem.write (s.resolve a) (s.resolve b) = some t.mem := by
  by_cases hs : s.status = .running
  · obtain ⟨i, hd, he⟩ | ⟨k, n, _, rfl⟩ := step_cases hs h
    · obtain hm | ⟨a, b, rfl, hm⟩ := he.mem_cases
      · exact .inl hm
      · exact .inr ⟨a, b, hd, hm⟩
    · exact .inl rfl
  · rw [step_terminal hs] at h
    exact .inl (next_inj h ▸ rfl)

theorem step_keeps_inv {s t : State} (hs : s.Inv) (h : step s = .next t) : t.Inv := by
  obtain hm | ⟨a, b, _, hm⟩ := step_mem_cases h
  · exact (congrArg Memory.wf hm).trans hs
  · exact Memory.wf_write hs hm

/-- A step that is no `wmem` to the address `c` keeps what is read there. -/
theorem step_read_of_no_store {s t : State} {c : Word} (hs : s.Inv) (h : step s = .next t)
    (hc : ∀ x y, s.decoded = .instr (.wmem x y) → s.resolve x ≠ c) : t.mem.read c = s.mem.read c := by
  obtain hm | ⟨a, b, hd, hm⟩ := step_mem_cases h
  · rw [hm]
  · rw [Memory.read_write hs hm c, if_neg (hc a b hd).symm]

theorem step_next (s : State) : ∃ t, step s = .next t := by
  by_cases hs : s.status = .running
  · rw [step_running hs]
    exact runDecoded_next s.decoded s
  · exact ⟨s, step_terminal hs⟩

/-- So does any number of such steps. -/
theorem runSteps_read_of_no_store {c : Word} (n : Nat) {s : State} (hs : s.Inv)
    (hc : ∀ m, m < n → ∀ x y, (runSteps m s).decoded = .instr (.wmem x y) → (runSteps m s).resolve x ≠ c) :
    (runSteps n s).mem.read c = s.mem.read c := by
  induction n generalizing s with
  | zero => rfl
  | succ n ih =>
    obtain ⟨t, ht⟩ := step_next s
    have hrest : ∀ m, m < n → ∀ x y, (runSteps m t).decoded = .instr (.wmem x y) →
        (runSteps m t).resolve x ≠ c := by
      intro m hm
      rw [← runSteps_succ m ht]
      exact hc (m + 1) (Nat.succ_lt_succ hm)
    calc (runSteps (n + 1) s).mem.read c
      _ = (runSteps n t).mem.read c := by rw [runSteps_succ n ht]
      _ = t.mem.read c := ih (step_keeps_inv hs ht) hrest
      _ = s.mem.read c := step_read_of_no_store hs ht (hc 0 n.succ_pos)

/-- What a `wmem` to an address in memory answers. -/
theorem exec_wmem_of_le {a : Operand} (b : Operand) {s : State} (ha : (s.resolve a).toNat ≤ 32767) :
    exec (.wmem a b) s = .next ((s.advance 3).setMem (s.mem.put (s.resolve a).toNat (s.resolve b))) :=
  execWmem_some (Memory.write_of_lt (Nat.lt_succ_of_le ha))

/-- The state after a `wmem` to an address in memory: still canonical, at the next instruction, the word stored. -/
theorem exec_wmem_next {a b : Operand} {s t : State} (hs : s.Inv) (ha : (s.resolve a).toNat ≤ 32767)
    (h : exec (.wmem a b) s = .next t) :
    t.Inv ∧ t.ip = s.ip + 3 ∧ t.mem.read (s.resolve a) = some (s.resolve b) := by
  have hlt : (s.resolve a).toNat < Config.memCells := Nat.lt_succ_of_le ha
  rw [exec_wmem_of_le b ha] at h
  obtain rfl := next_inj h
  refine ⟨Memory.wf_put _ hlt hs, rfl, ?_⟩
  rw [State.setMem_mem, Memory.read_write hs (Memory.write_of_lt hlt), if_pos rfl]

/-! #### What `Fetch()` and the opcode fetch see -/

theorem State.fetchThen_of_read_ok {s : State} {w : Word} {op : Operand} (k : Word → Operand → State → Result)
    (hw : s.mem.read s.ip = some w) (hd : decodeOperand w = .ok op) : s.fetchThen k = k w op (s.advance 1) := by
  simp [State.fetchThen, hw, hd]

theorem State.fetchThen_of_read_error {s : State} {w : Word} {e : ErrorKind} (k : Word → Operand → State → Result)
    (hw : s.mem.read s.ip = some w) (hd : decodeOperand w = .error e) : s.fetchThen k = raise e (s.advance 1) := by
  simp [State.fetchThen, hw, hd]

/-- The opcode word of the next step is what a data read at ip gives. -/
theorem State.window_head? (s : State) : s.window.head? = s.mem.read s.ip := by
  rw [State.window_eq]
  by_cases h : s.ip.toNat < Config.memCells
  · rw [Memory.window_succ_of_lt 3 h, Memory.read_of_lt h, List.head?_cons]
  · rw [Memory.window_of_ge 4 (not_lt.mp h), Memory.read_of_ge (not_lt.mp h), List.head?_nil]

/-- Settles O55: the cell keeps the word stored along the run, and both fetches read the cell. -/
theorem storeIsSeenByEveryLaterFetch : Obligations.StoreIsSeenByEveryLaterFetch := by
  intro a b s t n hs ha h hn
  obtain ⟨ht, hip, hstored⟩ := exec_wmem_next hs ha h
  have hread : (runSteps n t).mem.read (s.resolve a) = some (s.resolve b) :=
    (runSteps_read_of_no_store n ht hn).trans hstored
  refine ⟨fun k => ?_, fun hat => ?_, fun hat => ?_⟩
  · cases hd : decodeOperand (s.resolve b) with
    | error e => exact State.fetchThen_of_read_error (s := (runSteps n t).setIp (s.resolve a)) k hread hd
    | ok op => exact State.fetchThen_of_read_ok (s := (runSteps n t).setIp (s.resolve a)) k hread hd
  · rw [State.window_head?, hat, hread]
  · rw [State.window_head?, hip, ← hat, hstored]

end Sys2Proof.Machine
end

section
/-! ### The length of an instruction (30_encoding.md R45, R46) -/

namespace Sys2Proof

/-- The instructions of a row are encoded as the opcode word `w` and then the words of the operands read (R45). -/
def Shape.EncodesWith (w : Word) : Shape → Prop
  | .none i => encode i = [w]
  | .one f => ∀ a, encode (f a) = [w, a.word]
  | .val2 f => ∀ a b, encode (f a b) = [w, a.word, b.word]
  | .dst2 f => ∀ a b, encode (f a b) = [w, a.word, b.word]
  | .dst3 f => ∀ a b c, encode (f a b c) = [w, a.word, b.word, c.word]

/-- Each row of the opcode map is encoded with its own code. -/
theorem opcodeRow_encodesWith {n : Nat} {shape : Shape} (h : opcodeRow n = some shape) :
    shape.EncodesWith (BitVec.ofNat 16 n) := by
  have hn := opcodeRow_lt h
  interval_cases n <;> cases h <;> simp [Shape.EncodesWith, encode]

/-- What a row's operand fetches that lead to an instruction have read: the operand words of its encoding. -/
theorem Shape.read_eq_instr {shape : Shape} {w : Word} {ws : List Word} {i : Instr} (hw : shape.EncodesWith w)
    (h : shape.read ws = .instr i) :
    ∃ ops tail, encode i = w :: ops ∧ ops.length = shape.arity ∧ ws = ops ++ tail := by
  cases shape with
  | none j =>
    cases h
    exact ⟨[], ws, hw, rfl, rfl⟩
  | one f =>
    obtain ⟨a, tail, rfl, -, h⟩ := readOperand_eq_instr h
    cases h
    exact ⟨[a.word], tail, hw a, rfl, rfl⟩
  | val2 f =>
    obtain ⟨a, _, rfl, -, h⟩ := readOperand_eq_instr h
    obtain ⟨b, tail, rfl, -, h⟩ := readOperand_eq_instr h
    cases h
    exact ⟨[a.word, b.word], tail, hw a b, rfl, rfl⟩
  | dst2 f =>
    obtain ⟨a, _, rfl, -, h⟩ := readOperand_eq_instr h
    obtain ⟨b, tail, rfl, -, h⟩ := readOperand_eq_instr (registerCheckFirst_eq_instr h)
    cases h
    exact ⟨[a.word, b.word], tail, hw a b, rfl, rfl⟩
  | dst3 f =>
    obtain ⟨a, _, rfl, -, h⟩ := readOperand_eq_instr h
    obtain ⟨b, _, rfl, -, h⟩ := readOperand_eq_instr (registerCheckFirst_eq_instr h)
    obtain ⟨c, tail, rfl, -, h⟩ := readOperand_eq_instr h
    cases h
    exact ⟨[a.word, b.word, c.word], tail, hw a b c, rfl, rfl⟩

/-- What a decoder that answers an instruction has read: an opcode word with a row, which begins the instruction's
encoding, and the encoding's operand words, as many as the row's arity. -/
theorem decode_cons_eq_instr {w : Word} {rest : List Word} {i : Instr} (h : decode (w :: rest) = .instr i) :
    ∃ shape ops tail, opcodeRow w.toNat = some shape ∧ encode i = w :: ops ∧ ops.length = shape.arity ∧
      rest = ops ++ tail := by
  obtain ⟨_, _, shape, ⟨⟩, hrow, hread⟩ := decode_eq_instr h
  have hw : shape.EncodesWith w := by simpa using opcodeRow_encodesWith hrow
  obtain ⟨ops, tail, hops⟩ := Shape.read_eq_instr hw hread
  exact ⟨shape, ops, tail, hrow, hops⟩

theorem wordArity_of_row {w : Word} {shape : Shape} (h : opcodeRow w.toNat = some shape) :
    wordArity w = shape.arity := by
  simp [wordArity, h]

/-- The opcodes of each arity (R46). -/
theorem Shape.arity_of_row {n : Nat} {shape : Shape} (h : opcodeRow n = some shape) :
    (n ∈ [0, 18, 21] ∧ shape.arity = 0) ∨ (n ∈ [2, 3, 6, 17, 19, 20] ∧ shape.arity = 1) ∨
      (n ∈ [1, 7, 8, 14, 15, 16] ∧ shape.arity = 2) ∨ (n ∈ [4, 5, 9, 10, 11, 12, 13] ∧ shape.arity = 3) := by
  have hn := opcodeRow_lt h
  interval_cases n <;> cases h <;> simp [Shape.arity]

/-- Settles O6: the encoding is the opcode word and as many operand words as its row has. -/
theorem lengthIsFixedByTheOpcodeWord : Obligations.LengthIsFixedByTheOpcodeWord := by
  intro w rest i h
  obtain ⟨shape, ops, _, hrow, henc, hops, -⟩ := decode_cons_eq_instr h
  have hlen : (encode i).length = 1 + shape.arity := by rw [henc, List.length_cons, hops, Nat.add_comm]
  rw [hlen, wordArity_of_row hrow]
  refine ⟨rfl, ?_⟩
  obtain ⟨hn, ha⟩ | ⟨hn, ha⟩ | ⟨hn, ha⟩ | ⟨hn, ha⟩ := Shape.arity_of_row hrow
  · exact .inl ⟨hn, by rw [ha]⟩
  · exact .inr (.inl ⟨hn, by rw [ha]⟩)
  · exact .inr (.inr (.inl ⟨hn, by rw [ha]⟩))
  · exact .inr (.inr (.inr ⟨hn, by rw [ha]⟩))

end Sys2Proof
end

section
/-! ### The image file (30_encoding.md R55) -/

namespace Sys2Proof.Machine

theorem imageBytes_cons (w : Word) (ws : List Word) :
    imageBytes (w :: ws) =
      BitVec.ofNat 8 (w.toNat % 256) :: BitVec.ofNat 8 (w.toNat / 256) :: imageBytes ws := rfl

theorem imageBytes_length (ws : List Word) : (imageBytes ws).length = 2 * ws.length := by
  induction ws with
  | nil => rfl
  | cons w ws ih => simp only [imageBytes_cons, List.length_cons, ih, Nat.mul_succ]

/-- The low byte of a word as a number. -/
theorem toNat_ofNat_low (w : Word) : (BitVec.ofNat 8 (w.toNat % 256)).toNat = w.toNat % 256 := by
  rw [BitVec.toNat_ofNat, Nat.mod_mod]

/-- The high byte of a word as a number: nothing is cut off. -/
theorem toNat_ofNat_high (w : Word) : (BitVec.ofNat 8 (w.toNat / 256)).toNat = w.toNat / 256 := by
  have hlt : w.toNat / 256 < 2 ^ 8 := Nat.div_lt_of_lt_mul w.isLt
  rw [BitVec.toNat_ofNat, Nat.mod_eq_of_lt hlt]

/-- The byte pair of each word (R55). -/
theorem imageBytes_getElem? (ws : List Word) (k : Nat) (h : k < ws.length) :
    (imageBytes ws)[2 * k]?.map BitVec.toNat = some (ws[k].toNat % 256) ∧
      (imageBytes ws)[2 * k + 1]?.map BitVec.toNat = some (ws[k].toNat / 256) := by
  induction ws generalizing k with
  | nil => cases h
  | cons w ws ih =>
    cases k with
    | zero => exact ⟨congrArg some (toNat_ofNat_low w), congrArg some (toNat_ofNat_high w)⟩
    | succ k => exact ih k (Nat.lt_of_succ_lt_succ h)

theorem imageOfBytes_imageBytes (ws : List Word) : imageOfBytes (imageBytes ws) = some ws := by
  induction ws with
  | nil => rfl
  | cons w ws ih =>
    have hw : BitVec.ofNat 16 (w.toNat % 256 + 256 * (w.toNat / 256)) = w := by
      rw [Nat.mod_add_div, BitVec.ofNat_toNat, BitVec.setWidth_eq]
    rw [imageBytes_cons, imageOfBytes, ih, toNat_ofNat_low, toNat_ofNat_high, hw, Option.map_some]

/-- Settles O59, each clause by induction on the list of words. -/
theorem imageFileIsLittleEndian : Obligations.ImageFileIsLittleEndian := fun ws =>
  ⟨imageBytes_length ws, imageBytes_getElem? ws, imageOfBytes_imageBytes ws⟩

end Sys2Proof.Machine
end

section
/-! ### The three ranges of an operand word (40_fetch_decode_dispatch.md R60) -/

namespace Sys2Proof

/-- A word of the register range is the word of its RegisterRef, so it decodes to it. -/
theorem decodeOperand_of_toNat_eq_reg {w : Word} {i : Fin 8} (h : w.toNat = 32768 + i.val) :
    decodeOperand w = .ok (.reg i) := by
  have hw : w = (Operand.reg i).word := BitVec.eq_of_toNat_eq (h.trans (Operand.word_reg_toNat i).symm)
  rw [hw]
  exact decodeOperand_word rfl

/-- Settles O1: one lemma about the operand decoder for each of the three ranges. -/
theorem operandWordsFallInThreeRanges : Obligations.OperandWordsFallInThreeRanges := fun _ =>
  ⟨fun hlit => decodeOperand_lit (Nat.lt_succ_of_le hlit),
    fun _ hreg => decodeOperand_of_toNat_eq_reg hreg,
    fun hinvalid => decodeOperand_invalid hinvalid⟩

end Sys2Proof
end

section
/-! ### `noop` (42_control_flow.md R96) -/

namespace Sys2Proof.Machine

/-- What `noop` answers: ip past the opcode word. -/
theorem exec_noop (s : State) : exec .noop s = .next (s.advance 1) := rfl

/-- The word 21 alone is `noop`, by its row of the opcode map. -/
theorem decode_noop_word : decode [21] = .instr .noop := decode_cons_row (w := 21) (shape := .none .noop) rfl

/-- Settles O31, by the frame of an advance of ip. -/
theorem noopOnlyAdvances : Obligations.NoopOnlyAdvances :=
  ⟨rfl, decode_noop_word, fun s => ⟨s.advance 1, exec_noop s, State.advance_ip s 1, writesOnlyIp_advance 1 s⟩⟩

end Sys2Proof.Machine
end

section
/-! ### What raises each fault (60_exceptions.md R128, R129, R131) -/

namespace Sys2Proof.Machine

/-! #### Faults of an instruction's own effect -/

/-- When the instruction `i`, executed in `s`, raises a fault of kind `k` itself, its words having been fetched and
decoded (R128, R130, R131, R132, R135). The two kinds of an opcode or operand word are never raised so. -/
def FaultCause (i : Instr) (s : State) : ErrorKind → Prop
  | .expectedRegisterOperand => ∃ v, dstOperand i = some (.lit v)
  | .stackUnderflow => s.stack = [] ∧ (i = .ret ∨ ∃ d, i = .pop (.reg d))
  | .inputReadFailure => s.input.head? = some .fail ∧ ∃ d, i = .inp (.reg d)
  | .divisionByZero => ∃ d b c, i = .mod (.reg d) b c ∧ s.resolve c = 0
  | .memoryAddressOutOfRange =>
    (∃ d b, i = .rmem (.reg d) b ∧ s.mem.read (s.resolve b) = none) ∨
      (∃ a b, i = .wmem a b ∧ s.mem.write (s.resolve a) (s.resolve b) = none)
  | .invalidInstructionValue | .invalidOpCode => False

/-- An effect that takes a Running machine to Failed has the cause of that kind, and changes nothing else but ip. -/
theorem Effect.fault {i : Instr} {s t : State} {k : ErrorKind} (he : Effect i s t) (hs : s.status = .running)
    (hk : t.status = .failed k) : FaultCause i s k ∧ FaultFrame k s t := by
  cases he with
  | literalDst v hd => cases hk; exact ⟨⟨v, hd⟩, faultFrame_fail _ 2 s⟩
  | popEmpty d hi hstack => cases hk; exact ⟨⟨hstack, .inr ⟨d, hi⟩⟩, faultFrame_fail _ 2 s⟩
  | retEmpty hi hstack => cases hk; exact ⟨⟨hstack, .inl hi⟩, faultFrame_fail _ 1 s⟩
  | modZero d b c hi hz => cases hk; exact ⟨⟨d, b, c, hi, hz⟩, faultFrame_fail _ 4 s⟩
  | loadOutside d b hi hm => cases hk; exact ⟨.inl ⟨d, b, hi, hm⟩, faultFrame_fail _ 3 s⟩
  | storeOutside a b hi hm => cases hk; exact ⟨.inr ⟨a, b, hi, hm⟩, faultFrame_fail _ 3 s⟩
  | inputFailed d rest hi hin =>
    cases hk
    exact ⟨⟨congrArg List.head? hin, d, hi⟩, faultFrame_inputFailed hin⟩
  | stop => cases hk
  | _ => cases hs.symm.trans hk

theorem exec_fault {i : Instr} {s t : State} {k : ErrorKind} (hs : s.status = .running) (h : exec i s = .next t)
    (hk : t.status = .failed k) : FaultCause i s k ∧ FaultFrame k s t :=
  (effect_of_exec h).fault hs hk

/-! #### ExpectedRegisterOperand -/

/-- An instruction with an operand in a `dst` position checks the kind of that operand before all else. -/
theorem exec_eq_withDst {i : Instr} {a : Operand} (h : dstOperand i = some a) :
    ∃ handler : State → Fin 8 → Result, ∀ s, exec i s = withDst a s (handler s) := by
  cases i with
  | set | pop | eq | gt | add | mult | mod | and | or | not | rmem | inp => cases h; exact ⟨_, fun _ => rfl⟩
  | halt | push | jmp | jt | jf | wmem | call | ret | out | noop => cases h

theorem exec_literalDst {i : Instr} {v : Word} (h : dstOperand i = some (.lit v)) (s : State) :
    exec i s = .next ((s.advance 2).fail .expectedRegisterOperand) := by
  obtain ⟨handler, hexec⟩ := exec_eq_withDst h
  exact (hexec s).trans (withDst_lit v s (handler s))

/-- The instructions without a `dst` position (R128). -/
theorem dstOperand_eq_none_iff (i : Instr) :
    (i = .halt ∨ (∃ a, i = .push a) ∨ (∃ a, i = .jmp a) ∨ (∃ a b, i = .jt a b) ∨ (∃ a b, i = .jf a b) ∨
      (∃ a b, i = .wmem a b) ∨ (∃ a, i = .call a) ∨ i = .ret ∨ (∃ a, i = .out a) ∨ i = .noop) ↔
    dstOperand i = none := by
  cases i <;> simp [dstOperand]

/-- Settles O50: the check of the `dst` operand comes first, and no other effect ends in that fault. -/
theorem expectedRegisterExactlyForLiteralDst : Obligations.ExpectedRegisterExactlyForLiteralDst :=
  ⟨fun _ _ s hd => ⟨_, exec_literalDst hd s, faultFrame_fail _ 2 s⟩,
    fun _ _ _ hs h hk => (exec_fault hs h hk).1,
    dstOperand_eq_none_iff⟩

/-! #### InputReadFailure -/

/-- An `in` of a register that is answered with Fail raises `InputReadFailure`. -/
theorem exec_inp_status_of_fail {s t : State} {d : Fin 8} (hin : s.input.head? = some .fail)
    (h : exec (.inp (.reg d)) s = .next t) : t.status = .failed .inputReadFailure := by
  obtain ⟨rest, hrest⟩ := List.head?_eq_some_iff.mp hin
  obtain rfl := next_inj ((execIn_fail d hrest).symm.trans h)
  rfl

/-- Settles O52: the cause and the frame of the fault, and what an `in` answered with Fail does. -/
theorem inputReadFailureExactlyOnFail : Obligations.InputReadFailureExactlyOnFail := by
  intro i s t hs h
  refine ⟨⟨fun hk => (exec_fault hs h hk).1, ?_⟩, fun hk => (exec_fault hs h hk).2⟩
  rintro ⟨hin, d, rfl⟩
  exact exec_inp_status_of_fail hin h

/-! #### InvalidOpCode -/

/-- A word that is no code but decodes as an operand is refused by dispatch, with itself alone fetched (R129). -/
theorem decode_unusedCode {w : Word} (hlo : 22 ≤ w.toNat) (hhi : w.toNat ≤ 32775) (rest : List Word) :
    decode (w :: rest) = .reject .invalidOpCode 1 := by
  have hdispatch : dispatchWord w rest = .reject .invalidOpCode 1 := by rw [dispatchWord, opcodeRow_none hlo]
  obtain ⟨_, hok⟩ | ⟨_, _, hok⟩ | ⟨hge, _⟩ := decodeOperand_cases w
  · simp only [decode, hok, hdispatch]
  · simp only [decode, hok, hdispatch]
  · omega

/-- The decoder at ip answers `InvalidOpCode` only where the word there is no code but decodes, and then it has read that
word alone. -/
theorem State.unusedCode_of_decoded {s : State} {n : Nat} (h : s.decoded = .reject .invalidOpCode n) :
    n = 1 ∧ ∃ w : Word, s.mem.read s.ip = some w ∧ 22 ≤ w.toNat ∧ w.toNat ≤ 32775 := by
  obtain ⟨_, hk, _⟩ | ⟨w, rest, hwin, hw⟩ := decode_eq_reject h
  · cases hk
  · have hread : s.mem.read s.ip = some w := by rw [← State.window_head?, hwin, List.head?_cons]
    obtain ⟨_, hk, _⟩ | ⟨hlo, hhi, _, hn⟩ | ⟨_, hk, _⟩ := hw
    · cases hk
    · exact ⟨hn, w, hread, hlo, Nat.le_of_lt_succ hhi⟩
    · exact absurd rfl hk

/-- What a step does at such a word. -/
theorem step_unusedCode {s : State} {w : Word} (hs : s.status = .running) (hw : s.mem.read s.ip = some w)
    (hlo : 22 ≤ w.toNat) (hhi : w.toNat ≤ 32775) : step s = .next ((s.advance 1).fail .invalidOpCode) := by
  rw [step_running hs, State.decoded_of_read hw, decode_unusedCode hlo hhi]
  rfl

/-- A step that ends in `InvalidOpCode` found such a word at ip and fetched it alone. -/
theorem step_invalidOpCode {s t : State} (hs : s.status = .running) (h : step s = .next t)
    (hk : t.status = .failed .invalidOpCode) :
    t = (s.advance 1).fail .invalidOpCode ∧
      ∃ w : Word, s.mem.read s.ip = some w ∧ 22 ≤ w.toNat ∧ w.toNat ≤ 32775 := by
  obtain ⟨i, _, he⟩ | ⟨k, n, hd, rfl⟩ := step_cases hs h
  · exact (he.fault hs hk).1.elim
  · cases hk
    obtain ⟨rfl, hw⟩ := State.unusedCode_of_decoded hd
    exact ⟨rfl, hw⟩

/-- Settles O10, by the step at an unused code and by its converse. -/
theorem invalidOpCodeExactlyForUnusedCodes : Obligations.InvalidOpCodeExactlyForUnusedCodes := by
  intro s t hs h
  refine ⟨⟨fun hk => (step_invalidOpCode hs h hk).2, ?_⟩, fun hk => ?_⟩
  · rintro ⟨w, hw, hlo, hhi⟩
    obtain rfl := next_inj ((step_unusedCode hs hw hlo hhi).symm.trans h)
    rfl
  · obtain ⟨rfl, _⟩ := step_invalidOpCode hs h hk
    exact ⟨rfl, faultFrame_fail _ 1 s⟩

end Sys2Proof.Machine
end

section
/-! ### Encoding and decoding are inverse (30_encoding.md sections 1 and 2) -/

namespace Sys2Proof

/-! #### What each row reads from the words of legal operands -/

theorem readOperand_word {a : Operand} (ha : a.wfVal = true) (n : Nat) (rest : List Word)
    (k : Operand → List Word → Decoded) : readOperand n (a.word :: rest) k = k a rest :=
  readOperand_cons_ok k (decodeOperand_word ha)

theorem Shape.read_one_words (f : Operand → Instr) {a : Operand} (ha : a.wfVal = true) (rest : List Word) :
    (Shape.one f).read (a.word :: rest) = .instr (f a) :=
  readOperand_word ha 1 rest fun a _ => .instr (f a)

theorem Shape.read_val2_words (f : Operand → Operand → Instr) {a b : Operand} (h : (a.wfVal && b.wfVal) = true)
    (rest : List Word) : (Shape.val2 f).read (a.word :: b.word :: rest) = .instr (f a b) := by
  obtain ⟨ha, hb⟩ := Bool.and_eq_true_iff.mp h
  rw [Shape.read, readOperand_word ha, readOperand_word hb]

theorem Shape.read_dst2_words (f : Operand → Operand → Instr) {a b : Operand} (h : (a.wfDst && b.wfVal) = true)
    (rest : List Word) : (Shape.dst2 f).read (a.word :: b.word :: rest) = .instr (f a b) := by
  obtain ⟨ha, hb⟩ := Bool.and_eq_true_iff.mp h
  rw [Shape.read, readOperand_word (Operand.wfVal_of_wfDst ha), readOperand_word hb, registerCheckFirst_instr]

theorem Shape.read_dst3_words (f : Operand → Operand → Operand → Instr) {a b c : Operand}
    (h : (a.wfDst && b.wfVal && c.wfVal) = true) (rest : List Word) :
    (Shape.dst3 f).read (a.word :: b.word :: c.word :: rest) = .instr (f a b c) := by
  obtain ⟨hab, hc⟩ := Bool.and_eq_true_iff.mp h
  obtain ⟨ha, hb⟩ := Bool.and_eq_true_iff.mp hab
  rw [Shape.read, readOperand_word (Operand.wfVal_of_wfDst ha), readOperand_word hb, readOperand_word hc,
    registerCheckFirst_instr]

theorem decode_of_row {w : Word} {ops : List Word} {shape : Shape} {i : Instr} (hrow : opcodeRow w.toNat = some shape)
    (hread : shape.read ops = .instr i) : decode (w :: ops) = .instr i :=
  (decode_cons_row hrow).trans hread

/-- Settles O3: the opcode word selects the row of its instruction, and the row reads its operands back. -/
theorem decodeOfEncodeIsTheInstruction : Obligations.DecodeOfEncodeIsTheInstruction := by
  intro i rest h
  cases i with
  | halt | ret | noop => exact decode_of_row rfl rfl
  | push | jmp | call | out => exact decode_of_row rfl (Shape.read_one_words _ h rest)
  | pop | inp => exact decode_of_row rfl (Shape.read_one_words _ (Operand.wfVal_of_wfDst h) rest)
  | jt | jf | wmem => exact decode_of_row rfl (Shape.read_val2_words _ h rest)
  | set | not | rmem => exact decode_of_row rfl (Shape.read_dst2_words _ h rest)
  | eq | gt | add | mult | mod | and | or => exact decode_of_row rfl (Shape.read_dst3_words _ h rest)

/-- Settles O4: the words read are the opcode word and the operand words of the encoding, and the rest is not read. -/
theorem decodedWordsBeginWithTheEncoding : Obligations.DecodedWordsBeginWithTheEncoding := by
  intro ws i h
  cases ws with
  | nil => cases h
  | cons w rest =>
    obtain ⟨_, ops, tail, _, henc, _, rfl⟩ := decode_cons_eq_instr h
    exact ⟨tail, by rw [henc, List.cons_append]⟩

/-- Settles O5: eight instructions are legal, so their encodings decode to them. -/
theorem specWordsDecodeToTheirInstructions : Obligations.SpecWordsDecodeToTheirInstructions :=
  have hdecode := decodeOfEncodeIsTheInstruction
  ⟨hdecode (.add (.reg 0) (.lit 4) (.lit 5)) [] rfl, hdecode (.mod (.reg 0) (.lit 5) (.lit 0)) [] rfl,
    hdecode (.set (.reg 0) (.reg 1)) [] rfl, hdecode (.jt (.reg 0) (.lit 6)) [] rfl,
    hdecode (.wmem (.reg 0) (.lit 5)) [] rfl, hdecode (.out (.lit 65)) [0] rfl, hdecode (.inp (.reg 1)) [] rfl,
    hdecode .ret [] rfl⟩

end Sys2Proof
end

section
/-! ### Memory along a run (20_memory.md sections 1 and 3) -/

namespace Sys2Proof.Machine

/-- Settles O37: a step leaves memory as it was or writes one cell, and a write keeps the canonical form. -/
theorem everyStepKeepsMemoryCanonical : Obligations.EveryStepKeepsMemoryCanonical :=
  fun _ _ hs h => step_keeps_inv hs h

/-- Settles O36: the empty list of cells is canonical. -/
theorem resetMemoryIsCanonical : Obligations.ResetMemoryIsCanonical := rfl

/-- Settles O56: the cell keeps the word stored along the run, and the load reads the cell. -/
theorem loadReturnsTheLastStoredWord : Obligations.LoadReturnsTheLastStoredWord := by
  intro a b s t n hs ha h hn d c hc
  obtain ⟨ht, _, hstored⟩ := exec_wmem_next hs ha h
  have hread : (runSteps n t).mem.read ((runSteps n t).resolve c) = some (s.resolve b) := by
    rw [hc, runSteps_read_of_no_store n ht hn, hstored]
  exact ⟨_, execRmem_some d hread, State.setReg_reg_same _ d _⟩

end Sys2Proof.Machine
end

section
/-! ### Changes of the state that an instruction does not see (20_memory.md section 6, 43_stack.md, 45_io.md) -/

namespace Sys2Proof.Machine

/-- A change `φ` of the state that leaves registers and ip as they are and goes past every update of the registers, ip,
the stack's top, the output and the status. -/
structure Transparent (φ : State → State) : Prop where
  resolve : ∀ s op, (φ s).resolve op = s.resolve op
  ip : ∀ s, (φ s).ip = s.ip
  setReg : ∀ s d v, (φ s).setReg d v = φ (s.setReg d v)
  setIp : ∀ s v, (φ s).setIp v = φ (s.setIp v)
  advance : ∀ s n, (φ s).advance n = φ (s.advance n)
  push : ∀ s v, (φ s).push v = φ (s.push v)
  outByte : ∀ s b, (φ s).outByte b = φ (s.outByte b)
  halt : ∀ s, (φ s).halt = φ s.halt
  fail : ∀ s k, (φ s).fail k = φ (s.fail k)

/-- `f` answers a next state in `s`, and in `φ s` it answers that state changed by `φ`. -/
def CommutesAt (φ : State → State) (s : State) (f : State → Result) : Prop :=
  ∃ t, f s = .next t ∧ f (φ s) = .next (φ t)

theorem CommutesAt.of_eq {φ : State → State} {s t u : State} {f : State → Result} (h : f s = .next t)
    (hφ : f (φ s) = .next u) (hu : u = φ t) : CommutesAt φ s f :=
  ⟨t, h, hu ▸ hφ⟩

theorem CommutesAt.next {φ : State → State} {s t : State} {f : State → Result} (hc : CommutesAt φ s f)
    (h : f s = .next t) : f (φ s) = .next (φ t) := by
  obtain ⟨u, hu, hφ⟩ := hc
  rw [hφ, next_inj (hu.symm.trans h)]

/-- Taking an entry or a response with `take` is the same in `φ s`, but that the state left is changed by `φ`. -/
def TakesAlike {α : Type} (φ : State → State) (take : State → Option (α × State)) (s : State) : Prop :=
  take (φ s) = (take s).map (Prod.map id φ)

theorem takesAlike_pop {φ : State → State} {s : State} (hstack : (φ s).stack = s.stack)
    (hset : ∀ rest, { φ s with stack := rest } = φ { s with stack := rest }) : TakesAlike φ State.pop s := by
  unfold TakesAlike
  cases h : s.stack with
  | nil => rw [State.pop_nil h, State.pop_nil (hstack.trans h), Option.map_none]
  | cons v rest => rw [State.pop_cons h, State.pop_cons (hstack.trans h), hset, Option.map_some, Prod.map_apply, id]

theorem takesAlike_inByte {φ : State → State} {s : State} (hinput : (φ s).input = s.input)
    (hset : ∀ rest, { φ s with input := rest } = φ { s with input := rest }) : TakesAlike φ State.inByte s := by
  unfold TakesAlike
  cases h : s.input with
  | nil => rw [State.inByte_nil h, State.inByte_nil (hinput.trans h), Option.map_none]
  | cons r rest =>
    rw [State.inByte_cons h, State.inByte_cons (hinput.trans h), hset, Option.map_some, Prod.map_apply, id]

section Instructions

variable {φ : State → State} (hφ : Transparent φ) (s : State)
include hφ

/-! #### Meanings that touch registers, ip, the stack's top, the output and the status only -/

theorem Transparent.commutes_literalDst {i : Instr} {v : Word} (hi : dstOperand i = some (.lit v)) :
    CommutesAt φ s (exec i) :=
  .of_eq (exec_literalDst hi s) (exec_literalDst hi _) (by rw [hφ.advance, hφ.fail])

theorem Transparent.commutes_aluTwo (f : Word → Word) (a b : Operand) : CommutesAt φ s (aluTwo f a b) := by
  cases a with
  | lit v => exact .of_eq (aluTwo_lit f v b s) (aluTwo_lit f v b _) (by rw [hφ.advance, hφ.fail])
  | reg d =>
    exact .of_eq (aluTwo_reg f d b s) (aluTwo_reg f d b _) (by rw [hφ.resolve, hφ.advance, hφ.setReg])

theorem Transparent.commutes_aluThree (f : Word → Word → Word) (a b c : Operand) :
    CommutesAt φ s (aluThree f a b c) := by
  cases a with
  | lit v => exact .of_eq (aluThree_lit f v b c s) (aluThree_lit f v b c _) (by rw [hφ.advance, hφ.fail])
  | reg d =>
    exact .of_eq (aluThree_reg f d b c s) (aluThree_reg f d b c _)
      (by rw [hφ.resolve, hφ.resolve, hφ.advance, hφ.setReg])

theorem Transparent.commutes_mod (a b c : Operand) : CommutesAt φ s (execMod a b c) := by
  cases a with
  | lit v => exact .of_eq (execMod_lit v b c s) (execMod_lit v b c _) (by rw [hφ.advance, hφ.fail])
  | reg d =>
    have hc := hφ.resolve s c
    by_cases h : s.resolve c = 0
    · exact .of_eq (execMod_zero d b h) (execMod_zero d b (hc.trans h)) (by rw [hφ.advance, hφ.fail])
    · exact .of_eq (execMod_nonzero d b h) (execMod_nonzero d b (hc ▸ h))
        (by rw [hc, hφ.resolve, hφ.advance, hφ.setReg])

theorem Transparent.commutes_jt (a b : Operand) : CommutesAt φ s (execJt a b) := by
  have ha := hφ.resolve s a
  by_cases h : s.resolve a = 0
  · exact .of_eq (execJt_false b h) (execJt_false b (ha.trans h)) (hφ.advance s 3)
  · exact .of_eq (execJt_true b h) (execJt_true b (ha ▸ h)) (by rw [hφ.resolve, hφ.setIp])

theorem Transparent.commutes_jf (a b : Operand) : CommutesAt φ s (execJf a b) := by
  have ha := hφ.resolve s a
  by_cases h : s.resolve a = 0
  · exact .of_eq (execJf_true b h) (execJf_true b (ha.trans h)) (by rw [hφ.resolve, hφ.setIp])
  · exact .of_eq (execJf_false b h) (execJf_false b (ha ▸ h)) (hφ.advance s 3)

/-! #### Meanings that take something from the stack, from memory or from the input -/

theorem Transparent.commutes_popReg (d : Fin 8) (h : TakesAlike φ State.pop (s.advance 2)) :
    CommutesAt φ s (execPop (.reg d)) := by
  unfold TakesAlike at h
  rw [← hφ.advance] at h
  cases hp : (s.advance 2).pop with
  | none =>
    rw [hp] at h
    exact .of_eq (by rw [execPop, withDst_reg, hp, raise]) (by rw [execPop, withDst_reg, h]; rfl)
      (by rw [hφ.advance, hφ.fail])
  | some p =>
    rw [hp] at h
    exact .of_eq (by rw [execPop, withDst_reg, hp]) (by rw [execPop, withDst_reg, h]; rfl) (hφ.setReg _ d _)

theorem Transparent.commutes_ret (h : TakesAlike φ State.pop (s.advance 1)) : CommutesAt φ s execRet := by
  unfold TakesAlike at h
  rw [← hφ.advance] at h
  cases hp : (s.advance 1).pop with
  | none =>
    rw [hp] at h
    exact .of_eq (by rw [execRet, hp, raise]) (by rw [execRet, h]; rfl) (by rw [hφ.advance, hφ.fail])
  | some p =>
    rw [hp] at h
    exact .of_eq (by rw [execRet, hp]) (by rw [execRet, h]; rfl) (hφ.setIp _ _)

theorem Transparent.commutes_inpReg (d : Fin 8) (h : TakesAlike φ State.inByte s) :
    CommutesAt φ s (execIn (.reg d)) := by
  unfold TakesAlike at h
  rcases hp : s.inByte with _ | ⟨b | _, t⟩
  · rw [hp] at h
    exact .of_eq (by rw [execIn, withDst_reg, hp]) (by rw [execIn, withDst_reg, h]; rfl) rfl
  · rw [hp] at h
    exact .of_eq (by rw [execIn, withDst_reg, hp]) (by rw [execIn, withDst_reg, h]; rfl)
      (by rw [hφ.advance, hφ.setReg])
  · rw [hp] at h
    exact .of_eq (by rw [execIn, withDst_reg, hp]; rfl) (by rw [execIn, withDst_reg, h]; rfl)
      (by rw [hφ.advance, hφ.fail])

theorem Transparent.commutes_rmem (a b : Operand) (hmem : (φ s).mem = s.mem) : CommutesAt φ s (execRmem a b) := by
  cases a with
  | lit v => exact .of_eq (execRmem_lit v b s) (execRmem_lit v b _) (by rw [hφ.advance, hφ.fail])
  | reg d =>
    have hread : (φ s).mem.read ((φ s).resolve b) = s.mem.read (s.resolve b) := by rw [hmem, hφ.resolve]
    cases h : s.mem.read (s.resolve b) with
    | none => exact .of_eq (execRmem_none d h) (execRmem_none d (hread.trans h)) (by rw [hφ.advance, hφ.fail])
    | some v => exact .of_eq (execRmem_some d h) (execRmem_some d (hread.trans h)) (by rw [hφ.advance, hφ.setReg])

theorem Transparent.commutes_wmem (a b : Operand) (hmem : (φ s).mem = s.mem)
    (hset : ∀ t m, (φ t).setMem m = φ (t.setMem m)) : CommutesAt φ s (execWmem a b) := by
  have hwrite : (φ s).mem.write ((φ s).resolve a) ((φ s).resolve b) = s.mem.write (s.resolve a) (s.resolve b) := by
    rw [hmem, hφ.resolve, hφ.resolve]
  cases h : s.mem.write (s.resolve a) (s.resolve b) with
  | none => exact .of_eq (execWmem_none h) (execWmem_none (hwrite.trans h)) (by rw [hφ.advance, hφ.fail])
  | some m => exact .of_eq (execWmem_some h) (execWmem_some (hwrite.trans h)) (by rw [hφ.advance, hset])

/-! #### Every instruction at once -/

/-- An instruction does not see `φ` where what it takes from the stack, from memory or from the input is the same. -/
theorem Transparent.commutes_exec {i : Instr}
    (hpop : ((∃ d, i = .pop (.reg d)) ∨ i = .ret) → ∀ n, TakesAlike φ State.pop (s.advance n))
    (hinp : (∃ d, i = .inp (.reg d)) → TakesAlike φ State.inByte s)
    (hload : (∃ a b, i = .rmem a b) → (φ s).mem = s.mem)
    (hstore : (∃ a b, i = .wmem a b) → (φ s).mem = s.mem ∧ ∀ t m, (φ t).setMem m = φ (t.setMem m)) :
    CommutesAt φ s (exec i) := by
  cases i with
  | set a b => exact hφ.commutes_aluTwo s (fun x => x) a b
  | not a b => exact hφ.commutes_aluTwo s notWord a b
  | eq a b c => exact hφ.commutes_aluThree s eqWords a b c
  | gt a b c => exact hφ.commutes_aluThree s gtWords a b c
  | add a b c => exact hφ.commutes_aluThree s addWords a b c
  | mult a b c => exact hφ.commutes_aluThree s multWords a b c
  | and a b c => exact hφ.commutes_aluThree s andWords a b c
  | or a b c => exact hφ.commutes_aluThree s orWords a b c
  | mod a b c => exact hφ.commutes_mod s a b c
  | jt a b => exact hφ.commutes_jt s a b
  | jf a b => exact hφ.commutes_jf s a b
  | halt => exact .of_eq rfl rfl (by rw [hφ.advance, hφ.halt])
  | noop => exact .of_eq rfl rfl (hφ.advance s 1)
  | jmp a => exact .of_eq rfl rfl (by rw [hφ.resolve, hφ.setIp])
  | push a => exact .of_eq rfl rfl (by rw [hφ.resolve, hφ.advance, hφ.push])
  | call a => exact .of_eq rfl rfl (by rw [hφ.resolve, State.advance_ip, hφ.ip, hφ.advance, hφ.push, hφ.setIp]; rfl)
  | out a => exact .of_eq rfl rfl (by rw [hφ.resolve, hφ.advance, hφ.outByte])
  | pop a =>
    cases a with
    | lit v => exact hφ.commutes_literalDst s rfl
    | reg d => exact hφ.commutes_popReg s d (hpop (.inl ⟨d, rfl⟩) 2)
  | ret => exact hφ.commutes_ret s (hpop (.inr rfl) 1)
  | rmem a b => exact hφ.commutes_rmem s a b (hload ⟨a, b, rfl⟩)
  | wmem a b => exact hφ.commutes_wmem s a b (hstore ⟨a, b, rfl⟩).1 (hstore ⟨a, b, rfl⟩).2
  | inp a =>
    cases a with
    | lit v => exact hφ.commutes_literalDst s rfl
    | reg d => exact hφ.commutes_inpReg s d (hinp ⟨d, rfl⟩)

end Instructions

/-! #### Another memory -/

theorem transparent_setMem (m : Memory) : Transparent (·.setMem m) :=
  ⟨fun s => s.setMem_resolve m, fun _ => rfl, fun _ _ _ => rfl, fun _ _ => rfl, fun _ _ => rfl, fun _ _ => rfl,
    fun _ _ => rfl, fun _ => rfl, fun _ _ => rfl⟩

/-- Settles O42: only a store changes memory, an instruction that neither loads nor stores commutes with a change of
memory, and a load of an image sets memory and the mark. -/
theorem memoryIsTouchedByRmemWmemAndLoadingOnly : Obligations.MemoryIsTouchedByRmemWmemAndLoadingOnly := by
  refine ⟨fun i s t hi h => ?_, fun i s t m hwmem hrmem h => ?_, fun ws s t h => ?_⟩
  · obtain hm | ⟨a, b, rfl, _⟩ := (effect_of_exec h).mem_cases
    · exact hm
    · exact absurd rfl (hi a b)
  · refine ((transparent_setMem m).commutes_exec s ?_ ?_ ?_ ?_).next h
    · exact fun _ n => takesAlike_pop rfl fun _ => rfl
    · exact fun _ => takesAlike_inByte rfl fun _ => rfl
    · exact fun ⟨a, b, hi⟩ => absurd hi (hrmem a b)
    · exact fun ⟨a, b, hi⟩ => absurd hi (hwmem a b)
  · obtain ⟨_, _, rfl⟩ := loadImage_eq_next h
    rfl

/-! #### Entries below the stack -/

/-- The state with the entries `below` put under the stack. -/
def State.putBelow (below : List Word) (s : State) : State := { s with stack := s.stack ++ below }

theorem State.putBelow_resolve (below : List Word) (s : State) (op : Operand) :
    (s.putBelow below).resolve op = s.resolve op := by
  cases op <;> rfl

theorem transparent_putBelow (below : List Word) : Transparent (State.putBelow below) :=
  ⟨State.putBelow_resolve below, fun _ => rfl, fun _ _ _ => rfl, fun _ _ => rfl, fun _ _ => rfl, fun _ _ => rfl,
    fun _ _ => rfl, fun _ => rfl, fun _ _ => rfl⟩

theorem takesAlike_pop_putBelow (below : List Word) {s : State} (h : s.stack ≠ []) :
    TakesAlike (State.putBelow below) State.pop s := by
  obtain ⟨v, rest, hs⟩ := List.exists_cons_of_ne_nil h
  have hs' : (s.putBelow below).stack = v :: (rest ++ below) := congrArg (· ++ below) hs
  simp only [TakesAlike, State.pop_cons hs, State.pop_cons hs']
  rfl

/-- Settles O44: an instruction takes at most the top entry. -/
theorem deeperStackEntriesAreInvisible : Obligations.DeeperStackEntriesAreInvisible := by
  intro i s t below hs h
  refine ((transparent_putBelow below).commutes_exec s ?_ ?_ ?_ ?_).next h
  · rintro hi n
    refine takesAlike_pop_putBelow below (s := s.advance n) ?_
    obtain hne | ⟨hpop, hret⟩ := hs
    · exact hne
    · obtain ⟨d, hd⟩ | hi := hi
      · exact absurd hd (hpop _)
      · exact absurd hi hret
  · exact fun _ => takesAlike_inByte rfl fun _ => rfl
  · exact fun _ => rfl
  · exact fun _ => ⟨rfl, fun _ _ => rfl⟩

/-! #### Responses behind the input -/

theorem transparent_supply (more : List Response) : Transparent (·.supply more) :=
  ⟨fun s => s.supply_resolve more, fun _ => rfl, fun _ _ _ => rfl, fun _ _ => rfl, fun _ _ => rfl, fun _ _ => rfl,
    fun _ _ => rfl, fun _ => rfl, fun _ _ => rfl⟩

theorem takesAlike_inByte_supply (more : List Response) {s : State} (h : s.input ≠ []) :
    TakesAlike (·.supply more) State.inByte s := by
  obtain ⟨r, rest, hs⟩ := List.exists_cons_of_ne_nil h
  have hs' : (s.supply more).input = r :: (rest ++ more) := congrArg (· ++ more) hs
  simp only [TakesAlike, State.inByte_cons hs, State.inByte_cons hs']
  rfl

theorem State.waiting_of_inp {s : State} {d : Fin 8} (hs : s.status = .running)
    (hd : s.decoded = .instr (.inp (.reg d))) (hin : s.input = []) : s.waiting = true := by
  simp [State.waiting, hs, hd, hin]

/-- A step that does not wait does not see the responses behind the next one. -/
theorem step_commutes_supply {s : State} (more : List Response) (hw : s.waiting = false) :
    CommutesAt (·.supply more) s step := by
  by_cases hs : s.status = .running
  · unfold CommutesAt
    rw [step_running hs, step_running (s := s.supply more) hs]
    change CommutesAt (·.supply more) s (runDecoded s.decoded)
    cases hd : s.decoded with
    | reject k n => exact .of_eq rfl rfl rfl
    | instr i =>
      refine (transparent_supply more).commutes_exec s ?_ ?_ ?_ ?_
      · exact fun _ n => takesAlike_pop rfl fun _ => rfl
      · rintro ⟨d, rfl⟩
        refine takesAlike_inByte_supply more fun hin => ?_
        rw [State.waiting_of_inp hs hd hin] at hw
        cases hw
      · exact fun _ => rfl
      · exact fun _ => ⟨rfl, fun _ _ => rfl⟩
  · exact .of_eq (step_terminal hs) (step_terminal (s := s.supply more) hs) rfl

/-- Settles O47, by induction on the number of steps. -/
theorem unreadInputChangesNothing : Obligations.UnreadInputChangesNothing := by
  intro n
  induction n with
  | zero => exact fun _ _ _ => rfl
  | succ n ih =>
    intro s more hw
    obtain ⟨t, ht, ht'⟩ := step_commutes_supply (s := s) more (hw 0 n.succ_pos)
    rw [runSteps_succ n ht, runSteps_succ n ht']
    refine ih t more fun m hm => ?_
    rw [← runSteps_succ m ht]
    exact hw (m + 1) (Nat.succ_lt_succ hm)

end Sys2Proof.Machine
end

section
/-! ### The step against the spec's pseudocode (40_fetch_decode_dispatch.md sections 2 and 3, 41 to 45) -/

namespace Sys2Proof.Machine

/-- Settles O7: the step runs what the decoder reads in the words at ip. -/
theorem stepRunsTheDecodedInstruction : Obligations.StepRunsTheDecodedInstruction := by
  intro s i hs hd
  rw [step_running hs, State.decoded, hd, runDecoded]

/-- Settles O8: an instruction and a rejection answer a next state, and so does a machine that has stopped. -/
theorem everyStepAnswersANextState : Obligations.EveryStepAnswersANextState := step_next

/-! #### The opcode fetch -/

theorem step_ipOutside {s : State} (hs : s.status = .running) (hip : 32768 ≤ s.ip.toNat) :
    step s = .next (s.fail .memoryAddressOutOfRange) := by
  have hd : s.decoded = .reject .memoryAddressOutOfRange 0 := by
    rw [State.decoded, State.window_eq, Memory.window_of_ge 4 hip, decode]
  rw [step_running hs, hd, runDecoded, State.advance_zero, raise]

theorem step_invalidWord {s : State} {w : Word} (hs : s.status = .running) (hw : s.mem.read s.ip = some w)
    (hinvalid : 32776 ≤ w.toNat) : step s = .next ((s.advance 1).fail .invalidInstructionValue) := by
  have hd : s.decoded = .reject .invalidInstructionValue 1 := by
    simp only [State.decoded_of_read hw, decode, decodeOperand_invalid hinvalid]
  rw [step_running hs, hd, runDecoded, raise]

/-- Settles O9: no word at ip, or its range, decides what the step does. -/
theorem opcodeFetchFaultsInOrder : Obligations.OpcodeFetchFaultsInOrder := by
  intro s hs
  refine ⟨step_ipOutside hs, fun w hw => ⟨step_invalidWord hs hw, step_unusedCode hs hw, fun hcode => ?_⟩⟩
  obtain ⟨shape, hrow⟩ := opcodeRow_isSome (Nat.lt_succ_of_le hcode)
  exact ⟨shape, hrow, by rw [step_running hs, State.decoded_of_row hw hrow]⟩

/-! #### Arithmetic, logic, comparison -/

theorem eqWords_eq (x y : Word) : eqWords x y = if x = y then 1 else 0 := by
  simp only [eqWords, conditionWord, decide_eq_true_eq]

theorem gtWords_eq (x y : Word) : gtWords x y = if x.toNat > y.toNat then 1 else 0 := by
  simp only [gtWords, conditionWord, decide_eq_true_eq]

/-- The step of an opcode whose meaning is `aluTwo f`. -/
theorem step_aluTwo {s : State} {n : Word} {i : Operand → Operand → Instr} (f : Word → Word) (h : OpcodeAt n s)
    (hrow : opcodeRow n.toNat = some (.dst2 i)) (hi : ∀ a b, exec (i a b) s = aluTwo f a b s) :
    step s = (s.advance 1).operands2 fun d x s => .next (s.setReg d (f x)) :=
  step_dst2 h.1 h.2 hrow (fun v b => hi (.lit v) b) fun d b => hi (.reg d) b

/-- The step of an opcode whose meaning is `aluThree f`. -/
theorem step_aluThree {s : State} {n : Word} {i : Operand → Operand → Operand → Instr} (f : Word → Word → Word)
    (h : OpcodeAt n s) (hrow : opcodeRow n.toNat = some (.dst3 i))
    (hi : ∀ a b c, exec (i a b c) s = aluThree f a b c s) :
    step s = (s.advance 1).operands3 fun d x y s => .next (s.setReg d (f x y)) :=
  step_dst3 h.1 h.2 hrow (fun v b c => hi (.lit v) b c) fun d b c => hi (.reg d) b c

theorem step_eq {s : State} (h : OpcodeAt 4 s) :
    step s = (s.advance 1).operands3 fun d x y s => .next (s.setReg d (if x = y then 1 else 0)) := by
  simp only [← eqWords_eq]
  exact step_aluThree eqWords h rfl fun _ _ _ => rfl

theorem step_gt {s : State} (h : OpcodeAt 5 s) :
    step s = (s.advance 1).operands3 fun d x y s => .next (s.setReg d (if x.toNat > y.toNat then 1 else 0)) := by
  simp only [← gtWords_eq]
  exact step_aluThree gtWords h rfl fun _ _ _ => rfl

/-- Settles O11: the rows of the opcode map, with the common shape of their meanings; `mod` has its divisor check. -/
theorem aluStepsFollowTheirPseudocode : Obligations.AluStepsFollowTheirPseudocode := fun _ =>
  ⟨fun h => step_aluTwo (fun x => x) h rfl fun _ _ => rfl, step_eq, step_gt,
    fun h => step_aluThree addWords h rfl fun _ _ _ => rfl, fun h => step_aluThree multWords h rfl fun _ _ _ => rfl,
    fun h => step_dst3 h.1 h.2 rfl (fun _ _ _ => rfl) fun _ _ _ => rfl,
    fun h => step_aluThree andWords h rfl fun _ _ _ => rfl, fun h => step_aluThree orWords h rfl fun _ _ _ => rfl,
    fun h => step_aluTwo notWord h rfl fun _ _ => rfl⟩

/-! #### Control flow -/

theorem exec_jt_eq (a b : Operand) (s : State) :
    exec (.jt a b) s = if s.resolve a ≠ 0 then .next (s.setIp (s.resolve b)) else .next (s.advance 3) := by
  split
  · next h => exact execJt_true b h
  · next h => exact execJt_false b (not_not.mp h)

theorem exec_jf_eq (a b : Operand) (s : State) :
    exec (.jf a b) s = if s.resolve a = 0 then .next (s.setIp (s.resolve b)) else .next (s.advance 3) := by
  split
  · next h => exact execJf_true b h
  · next h => exact execJf_false b h

theorem step_ret {s : State} (h : OpcodeAt 18 s) :
    step s = match s.stack with
      | [] => raise .stackUnderflow (s.advance 1)
      | t :: rest => .next (State.setIp { s.advance 1 with stack := rest } t) := by
  rw [step_none (i := .ret) h.1 h.2 rfl]
  cases hs : s.stack with
  | nil => exact execRet_empty hs
  | cons t rest => exact execRet_cons hs

/-- Settles O12, by the row of each opcode and the equations of its meaning. -/
theorem controlStepsFollowTheirPseudocode : Obligations.ControlStepsFollowTheirPseudocode := fun s =>
  ⟨fun h => step_none (i := .halt) h.1 h.2 rfl, fun h => step_oneVal h.1 h.2 rfl fun _ => rfl,
    fun h => step_val2 h.1 h.2 rfl fun a b => exec_jt_eq a b s,
    fun h => step_val2 h.1 h.2 rfl fun a b => exec_jf_eq a b s,
    fun h => step_oneVal h.1 h.2 rfl fun _ => rfl, step_ret, fun h => step_none (i := .noop) h.1 h.2 rfl⟩

/-! #### Stack and memory -/

theorem step_pop {s : State} (h : OpcodeAt 3 s) :
    step s = (s.advance 1).fetchDst fun d s =>
      match s.stack with
      | [] => raise .stackUnderflow s
      | v :: rest => .next (State.setReg { s with stack := rest } d v) := by
  refine step_oneDst h.1 h.2 rfl (fun _ => rfl) fun d => ?_
  cases hs : s.stack with
  | nil => simp only [State.advance_stack, hs]; exact execPop_empty d hs
  | cons v rest => simp only [State.advance_stack, hs]; exact execPop_cons d hs

/-- Settles O13, by the row of each opcode and the equations of its meaning. -/
theorem stackAndMemoryStepsFollowTheirPseudocode : Obligations.StackAndMemoryStepsFollowTheirPseudocode := fun _ =>
  ⟨fun h => step_oneVal h.1 h.2 rfl fun _ => rfl, step_pop,
    fun h => step_dst2 h.1 h.2 rfl (fun _ _ => rfl) fun _ _ => rfl, fun h => step_val2 h.1 h.2 rfl fun _ _ => rfl⟩

/-! #### Output and input -/

theorem lowByte_toNat (w : Word) : (lowByte w).toNat = w.toNat % 256 := BitVec.toNat_setWidth 8 w

theorem lowByte_eq (w : Word) : lowByte w = BitVec.ofNat 8 (w.toNat % 256) :=
  BitVec.eq_of_toNat_eq ((lowByte_toNat w).trans (toNat_ofNat_low w).symm)

theorem byteWord_eq (b : Byte) : byteWord b = BitVec.ofNat 16 b.toNat := (BitVec.ofNat_toNat 16 b).symm

theorem step_in {s₀ : State} (h : OpcodeAt 20 s₀) :
    step s₀ = (s₀.advance 1).fetchDst fun d s =>
      match s.input with
      | [] => .next s₀
      | .byte b :: rest => .next (State.setReg { s with input := rest } d (BitVec.ofNat 16 b.toNat))
      | .fail :: rest => raise .inputReadFailure { s with input := rest } := by
  refine step_oneDst h.1 h.2 rfl (fun _ => rfl) fun d => ?_
  rcases hin : s₀.input with _ | ⟨b | _, rest⟩
  · simp only [State.advance_input, hin]; exact execIn_wait d hin
  · simp only [State.advance_input, hin, ← byteWord_eq]; exact execIn_byte d hin
  · simp only [State.advance_input, hin]; exact execIn_fail d hin

/-- Settles O14, by the row of each opcode, the three kinds of input, and the low byte of a word. -/
theorem ioStepsFollowTheirPseudocode : Obligations.IoStepsFollowTheirPseudocode := fun s =>
  ⟨fun h => step_oneVal h.1 h.2 rfl fun a => by rw [← lowByte_eq]; rfl, step_in⟩

end Sys2Proof.Machine
end

section
/-! ### Runs and their end (10_state.md section 5, 46_host_interface.md section 1) -/

namespace Sys2Proof.Machine

theorem runSteps_terminal {s : State} (hs : s.status ≠ .running) (n : Nat) : runSteps n s = s := by
  induction n with
  | zero => rfl
  | succ n ih => rw [runSteps_succ n (step_terminal hs), ih]

/-- Settles O38: a step of a stopped machine answers the same state, and so do any number of them. -/
theorem terminalStatesNeverChange : Obligations.TerminalStatesNeverChange :=
  fun _ n hs => ⟨step_terminal hs, runSteps_terminal hs n⟩

theorem runSteps_add (m n : Nat) (s : State) : runSteps (m + n) s = runSteps n (runSteps m s) := by
  induction m generalizing s with
  | zero => rw [Nat.zero_add, runSteps_zero]
  | succ m ih =>
    obtain ⟨t, ht⟩ := step_next s
    rw [Nat.succ_add, runSteps_succ (m + n) ht, runSteps_succ m ht, ih]

theorem State.outcome_running {s : State} (hs : s.status = .running) : s.outcome = none := by
  rw [State.outcome, hs]

theorem State.not_running_of_outcome {s : State} {o : RunOutcome} (h : s.outcome = some o) : s.status ≠ .running := by
  intro hs
  cases (State.outcome_running hs).symm.trans h

/-- A machine that has stopped after `m` steps is in the same state after any later number of steps. -/
theorem runSteps_of_le {m n : Nat} {s : State} (hmn : m ≤ n) (hs : (runSteps m s).status ≠ .running) :
    runSteps n s = runSteps m s := by
  obtain ⟨k, rfl⟩ := Nat.exists_eq_add_of_le hmn
  rw [runSteps_add, runSteps_terminal hs]

/-- Settles O39: of two states in which a run has stopped the later one is the earlier one. -/
theorem runHasOneOutcome : Obligations.RunHasOneOutcome := by
  rintro s t u o p ⟨m, rfl, ho⟩ ⟨n, rfl, hp⟩
  have heq : runSteps m s = runSteps n s := by
    obtain hmn | hnm := Nat.le_total m n
    · exact (runSteps_of_le hmn (State.not_running_of_outcome ho)).symm
    · exact runSteps_of_le hnm (State.not_running_of_outcome hp)
  refine ⟨?_, heq⟩
  rw [heq, hp] at ho
  exact (Option.some.inj ho).symm

theorem Effect.status_cases {i : Instr} {s t : State} (he : Effect i s t) :
    t.status = s.status ∨ (t.status = .halted ∧ i = .halt) ∨ ∃ k, t.status = .failed k := by
  cases he with
  | stop hi => exact .inr (.inl ⟨rfl, hi⟩)
  | literalDst | popEmpty | retEmpty | modZero | loadOutside | storeOutside | inputFailed => exact .inr (.inr ⟨_, rfl⟩)
  | _ => exact .inl rfl

/-- Settles O40: of the effects only that of `halt` makes the status Halted, and a rejection makes it Failed. -/
theorem onlyHaltEndsSuccessfully : Obligations.OnlyHaltEndsSuccessfully := by
  intro s t hs h
  obtain ⟨i, hd, he⟩ | ⟨k, n, _, rfl⟩ := step_cases hs h
  · obtain hsame | ⟨hhalt, rfl⟩ | hfail := he.status_cases
    · exact .inl (hsame.trans hs)
    · exact .inr (.inl ⟨hhalt, hd⟩)
    · exact .inr (.inr hfail)
  · exact .inr (.inr ⟨k, rfl⟩)

/-! #### Registers and the stack -/

theorem Effect.reg_of_ne {i : Instr} {s t : State} {j : Fin 8} (he : Effect i s t) (hj : writtenReg i ≠ some j) :
    t.reg j = s.reg j := by
  cases he with
  | writeReg d v n hd => exact State.setReg_reg_other _ v fun e => hj (e ▸ hd)
  | popReg d v rest hi => subst hi; exact State.setReg_reg_other _ v fun e => hj (congrArg some e.symm)
  | readByte d b rest hi => subst hi; exact State.setReg_reg_other _ _ fun e => hj (congrArg some e.symm)
  | _ => rfl

/-- Settles O41: every register write among the effects is to the register of the destination operand. -/
theorem onlyTheDestinationRegisterChanges : Obligations.OnlyTheDestinationRegisterChanges :=
  fun _ _ _ _ h hj => (effect_of_exec h).reg_of_ne hj

theorem Effect.stack_eq {i : Instr} {s t : State} (he : Effect i s t) (hpush : ∀ a, i ≠ .push a)
    (hcall : ∀ a, i ≠ .call a) (hpop : ∀ d, i ≠ .pop (.reg d)) (hret : i ≠ .ret) : t.stack = s.stack := by
  cases he with
  | pushWord a hi => exact absurd hi (hpush a)
  | callTo a hi => exact absurd hi (hcall a)
  | popReg d v rest hi => exact absurd hi (hpop d)
  | returnTo v rest hi => exact absurd hi hret
  | _ => rfl

/-- Settles O43: `push` and `call`, `pop` of a register and `ret` on an empty stack and on one with a top entry, and all
other instructions. -/
theorem stackMovesByOneEntry : Obligations.StackMovesByOneEntry := by
  intro i s t hs h
  cases i with
  | push a =>
    obtain rfl := next_inj h
    exact .inl ⟨.inl ⟨a, rfl⟩, _, rfl⟩
  | call a =>
    obtain rfl := next_inj h
    exact .inl ⟨.inr ⟨a, rfl⟩, _, rfl⟩
  | ret =>
    cases hst : s.stack with
    | nil =>
      obtain rfl := next_inj ((execRet_empty hst).symm.trans h)
      exact .inr (.inr ⟨hst, ⟨nofun, nofun⟩, .inr rfl⟩)
    | cons v rest =>
      obtain rfl := next_inj ((execRet_cons hst).symm.trans h)
      exact .inr (.inl ⟨.inr rfl, hs, v, rfl⟩)
  | pop a =>
    cases a with
    | lit v =>
      obtain rfl := next_inj h
      exact .inr (.inr ⟨rfl, ⟨nofun, nofun⟩, .inl ⟨nofun, nofun⟩⟩)
    | reg d =>
      cases hst : s.stack with
      | nil =>
        obtain rfl := next_inj ((execPop_empty d hst).symm.trans h)
        exact .inr (.inr ⟨hst, ⟨nofun, nofun⟩, .inr rfl⟩)
      | cons v rest =>
        obtain rfl := next_inj ((execPop_cons d hst).symm.trans h)
        exact .inr (.inl ⟨.inl ⟨d, rfl⟩, hs, v, rfl⟩)
  | _ =>
    have hstack : t.stack = s.stack := (effect_of_exec h).stack_eq nofun nofun nofun nofun
    exact .inr (.inr ⟨hstack, ⟨nofun, nofun⟩, .inl ⟨nofun, nofun⟩⟩)

theorem push_pop (a : Operand) (d : Fin 8) (s : State) : ∃ t u, exec (.push a) s = .next t ∧
    exec (.pop (.reg d)) t = .next u ∧ u.reg d = s.resolve a ∧ u.stack = s.stack ∧ SameRegsBut d s u :=
  ⟨(s.advance 2).push (s.resolve a), _, rfl, execPop_cons d rfl, State.setReg_reg_same _ d _, rfl,
    fun _ hj => State.setReg_reg_other _ _ hj⟩

theorem call_ret (a : Operand) (s : State) : ∃ t u, exec (.call a) s = .next t ∧ exec .ret t = .next u ∧
    u.ip = s.ip + 2 ∧ u.stack = s.stack ∧ SameRegs s u := by
  refine ⟨_, _, rfl, execRet_cons (s := ((s.advance 2).push (s.advance 2).ip).setIp (s.resolve a)) rfl, ?_⟩
  exact ⟨rfl, rfl, fun _ => rfl⟩

/-- Settles O45: the entry that `push` or `call` puts on top is the one that `pop` or `ret` takes. -/
theorem pushPopAndCallRetRoundTrip : Obligations.PushPopAndCallRetRoundTrip := ⟨push_pop, call_ret⟩

end Sys2Proof.Machine
end

section
/-! ### Where a step leaves ip (10_state.md R15, 45_io.md R112, 70_reset_and_hazards.md section 5) -/

namespace Sys2Proof.Machine

theorem encode_length_bounds (i : Instr) : 1 ≤ (encode i).length ∧ (encode i).length ≤ 4 := by
  cases i <;> simp [encode]

theorem two_le_length_of_dstOperand {i : Instr} {a : Operand} (h : dstOperand i = some a) : 2 ≤ (encode i).length := by
  cases i with
  | set | pop | eq | gt | add | mult | mod | and | or | not | rmem | inp => simp [encode]
  | halt | push | jmp | jt | jf | wmem | call | ret | out | noop => cases h

/-- Where an instruction leaves ip: past some of its words, at its own address while it waits, or at a target. -/
theorem Effect.ip_cases {i : Instr} {s t : State} (he : Effect i s t) :
    (∃ n, 1 ≤ n ∧ n ≤ (encode i).length ∧ t.ip = s.ip + BitVec.ofNat 16 n) ∨
    (t = s ∧ ∃ d, i = .inp (.reg d) ∧ s.input = []) ∨
    (∃ a, i = .jmp a ∧ t.ip = s.resolve a) ∨
    (∃ a b, i = .jt a b ∧ s.resolve a ≠ 0 ∧ t.ip = s.resolve b) ∨
    (∃ a b, i = .jf a b ∧ s.resolve a = 0 ∧ t.ip = s.resolve b) ∨
    (∃ a v, i = .call a ∧ t.stack = v :: s.stack) ∨
    (∃ v, i = .ret ∧ s.stack = v :: t.stack) := by
  cases he with
  | writeReg d v n hd hp hq hn => exact .inl ⟨n, hn ▸ (encode_length_bounds i).1, hn.le, rfl⟩
  | literalDst v hd => exact .inl ⟨2, by decide, two_le_length_of_dstOperand hd, rfl⟩
  | wait d hi hin => exact .inr (.inl ⟨rfl, d, hi, hin⟩)
  | jumpTo v hi =>
    obtain rfl | ⟨a, rfl, ha⟩ | ⟨a, b, rfl, ha, hb⟩ | ⟨a, b, rfl, ha, hb⟩ := hi
    · exact .inr (.inr (.inl ⟨_, rfl, rfl⟩))
    · exact .inr (.inr (.inl ⟨a, rfl, ha.symm⟩))
    · exact .inr (.inr (.inr (.inl ⟨a, b, rfl, ha, hb.symm⟩)))
    · exact .inr (.inr (.inr (.inr (.inl ⟨a, b, rfl, ha, hb.symm⟩))))
  | callTo a hi => exact .inr (.inr (.inr (.inr (.inr (.inl ⟨a, _, hi, rfl⟩)))))
  | returnTo v rest hi hst => exact .inr (.inr (.inr (.inr (.inr (.inr ⟨v, hi, hst⟩)))))
  | fallThrough hi => obtain ⟨a, b, rfl, _⟩ | ⟨a, b, rfl, _⟩ := hi <;> exact .inl ⟨3, by decide, Nat.le_refl 3, rfl⟩
  | nothing hi | stop hi | retEmpty hi => subst hi; exact .inl ⟨1, by decide, Nat.le_refl 1, rfl⟩
  | popReg _ _ _ hi | readByte _ _ _ hi | emit _ hi | pushWord _ hi | popEmpty _ hi | inputFailed _ _ hi =>
    subst hi; exact .inl ⟨2, by decide, Nat.le_refl 2, rfl⟩
  | store _ _ _ hi | loadOutside _ _ hi | storeOutside _ _ hi =>
    subst hi; exact .inl ⟨3, by decide, Nat.le_refl 3, rfl⟩
  | modZero _ _ _ hi => subst hi; exact .inl ⟨4, by decide, Nat.le_refl 4, rfl⟩

theorem ip_add_ne {p : Word} {n : Nat} (h : 1 ≤ n) (h' : n ≤ 4) : p + BitVec.ofNat 16 n ≠ p := by
  intro heq
  have htoNat := congrArg BitVec.toNat heq
  simp only [BitVec.toNat_add, BitVec.toNat_ofNat] at htoNat
  omega

theorem State.waiting_iff (s : State) :
    s.waiting = true ↔ s.status = .running ∧ (∃ d, s.decoded = .instr (.inp (.reg d))) ∧ s.input = [] := by
  constructor
  · intro h
    unfold State.waiting at h
    split at h
    · next d hs hd hin => exact ⟨hs, ⟨d, hd⟩, hin⟩
    · cases h
  · rintro ⟨hs, ⟨d, hd⟩, hin⟩
    exact State.waiting_of_inp hs hd hin

theorem step_waiting {s : State} (h : s.waiting = true) : step s = .next s := by
  obtain ⟨hs, ⟨d, hd⟩, hin⟩ := s.waiting_iff.mp h
  rw [step_running hs, hd]
  exact execIn_wait d hin

/-- Settles O48: an instruction that moves ip past its words, adds a stack entry or takes one changes the state. -/
theorem stepsThatChangeNothingWaitOrLoop : Obligations.StepsThatChangeNothingWaitOrLoop := by
  refine ⟨fun s => step_waiting, fun s hs h => ?_⟩
  obtain ⟨i, hd, he⟩ | ⟨k, n, _, hfail⟩ := step_cases hs h
  · obtain ⟨n, hlo, hhi, hip⟩ | ⟨_, d, rfl, hin⟩ | ⟨a, rfl, ha⟩ | ⟨a, b, rfl, ha, hb⟩ | ⟨a, b, rfl, ha, hb⟩ |
      ⟨a, v, _, hst⟩ | ⟨v, _, hst⟩ := he.ip_cases
    · exact absurd hip.symm (ip_add_ne hlo (hhi.trans (encode_length_bounds i).2))
    · exact .inl (State.waiting_of_inp hs hd hin)
    · exact .inr (.inl ⟨a, hd, ha.symm⟩)
    · exact .inr (.inr (.inl ⟨a, b, hd, ha, hb.symm⟩))
    · exact .inr (.inr (.inr ⟨a, b, hd, ha, hb.symm⟩))
    · exact absurd hst.symm (List.cons_ne_self v s.stack)
    · exact absurd hst.symm (List.cons_ne_self v s.stack)
  · cases hs.symm.trans (congrArg State.status hfail)

/-- The words of the instruction at ip lie in memory. -/
theorem State.length_of_decoded {s : State} {i : Instr} (hip : s.ip.toNat ≤ 32768) (h : s.decoded = .instr i) :
    s.ip.toNat + (encode i).length ≤ 32768 := by
  obtain ⟨rest, hrest⟩ := decodedWordsBeginWithTheEncoding s.window i h
  have hle := s.mem.window_length_le 4 s.ip.toNat hip
  rw [← State.window_eq, hrest, List.length_append] at hle
  omega

theorem decode_reject_le {ws : List Word} {k : ErrorKind} {n : Nat} (h : decode ws = .reject k n) : n ≤ ws.length := by
  obtain ⟨rfl, _, rfl⟩ | ⟨w, rest, rfl, ⟨_, _, rfl⟩ | ⟨_, _, _, rfl⟩ | ⟨_, _, hn⟩⟩ := decode_eq_reject h
  · exact Nat.le_refl 0
  · exact Nat.succ_le_succ rest.length.zero_le
  · exact Nat.succ_le_succ rest.length.zero_le
  · rwa [List.length_cons, Nat.add_comm]

/-- The words fetched before a rejection lie in memory. -/
theorem State.fetched_of_reject {s : State} {k : ErrorKind} {n : Nat} (hip : s.ip.toNat ≤ 32768)
    (h : s.decoded = .reject k n) : s.ip.toNat + n ≤ 32768 := by
  have hn := decode_reject_le h
  have hle := s.mem.window_length_le 4 s.ip.toNat hip
  rw [← State.window_eq] at hle
  omega

/-- Settles O54: a step without a target moves ip past words that lie in memory. -/
theorem ipNeverRunsPastMemory : Obligations.IpNeverRunsPastMemory := by
  intro s t hs hip h
  have hadvance (n : Nat) (hn : s.ip.toNat + n ≤ 32768) : (s.ip + BitVec.ofNat 16 n).toNat ≤ 32768 := by
    rwa [← State.advance_ip, State.advance_ip_toNat s (by omega)]
  have hmem : s.ip.toNat ≤ 32768 := by omega
  obtain ⟨i, hd, he⟩ | ⟨k, n, hd, rfl⟩ := step_cases hs h
  · obtain ⟨n, _, hn, hip'⟩ | ⟨rfl, _⟩ | ⟨a, rfl, _⟩ | ⟨a, b, rfl, _⟩ | ⟨a, b, rfl, _⟩ | ⟨a, v, rfl, _⟩ | ⟨v, rfl, _⟩ :=
      he.ip_cases
    · have hfit := State.length_of_decoded hmem hd
      exact .inl (hip' ▸ hadvance n (by omega))
    · exact .inl hmem
    · exact .inr (.inl ⟨a, .inl hd⟩)
    · exact .inr (.inr (.inl ⟨a, b, .inl hd⟩))
    · exact .inr (.inr (.inl ⟨a, b, .inr hd⟩))
    · exact .inr (.inl ⟨a, .inr hd⟩)
    · exact .inr (.inr (.inr hd))
  · exact .inl (hadvance n (State.fetched_of_reject hmem hd))

end Sys2Proof.Machine
end

section
/-! ### Faults of a step and of an instruction's effect (60_exceptions.md) -/

namespace Sys2Proof.Machine

/-- Settles O49: an instruction's own fault and a rejection both have the frame of a fault, and then the machine has
stopped. -/
theorem faultsArePrecise : Obligations.FaultsArePrecise := by
  intro s t k hs h hk
  have hstopped : t.status ≠ .running := fun hrun => by cases hk.symm.trans hrun
  refine ⟨?_, runSteps_terminal hstopped⟩
  obtain ⟨i, _, he⟩ | ⟨k', n, _, rfl⟩ := step_cases hs h
  · exact (he.fault hs hk).2
  · cases hk
    exact faultFrame_fail k n s

theorem exec_status_of_emptyStack {i : Instr} {s t : State} (hstack : s.stack = [])
    (hi : i = .ret ∨ ∃ d, i = .pop (.reg d)) (h : exec i s = .next t) : t.status = .failed .stackUnderflow := by
  obtain rfl | ⟨d, rfl⟩ := hi
  · obtain rfl := next_inj ((execRet_empty hstack).symm.trans h)
    rfl
  · obtain rfl := next_inj ((execPop_empty d hstack).symm.trans h)
    rfl

/-- Settles O51: the cause and the frame of the fault, and what `ret` and `pop` of a register do on an empty stack. -/
theorem stackUnderflowExactlyOnAnEmptyStack : Obligations.StackUnderflowExactlyOnAnEmptyStack := fun _ _ _ hs h =>
  ⟨⟨fun hk => (exec_fault hs h hk).1, fun ⟨hstack, hi⟩ => exec_status_of_emptyStack hstack hi h⟩,
    fun hk => (exec_fault hs h hk).2⟩

theorem Memory.read_eq_none (m : Memory) (a : Word) : m.read a = none ↔ 32768 ≤ a.toNat := by
  refine ⟨fun h => ?_, fun h => Memory.read_of_ge h⟩
  by_contra hlt
  cases (Memory.read_of_lt (not_le.mp hlt)).symm.trans h

theorem Memory.write_eq_none (m : Memory) (a v : Word) : m.write a v = none ↔ 32768 ≤ a.toNat := by
  refine ⟨fun h => ?_, fun h => Memory.write_of_ge h⟩
  by_contra hlt
  cases (Memory.write_of_lt (not_le.mp hlt)).symm.trans h

/-- Settles O53: the causes of the two faults, and what the three instructions do there. -/
theorem addressAndDivisorFaultsExactlyThere : Obligations.AddressAndDivisorFaultsExactlyThere := by
  intro i s t hs h
  refine ⟨⟨fun hk => ?_, ?_⟩, ⟨fun hk => (exec_fault hs h hk).1, ?_⟩⟩
  · obtain ⟨d, b, hi, hm⟩ | ⟨a, b, hi, hm⟩ := (exec_fault hs h hk).1
    · exact .inl ⟨d, b, hi, (Memory.read_eq_none _ _).mp hm⟩
    · exact .inr ⟨a, b, hi, (Memory.write_eq_none _ _ _).mp hm⟩
  · rintro (⟨d, b, rfl, hb⟩ | ⟨a, b, rfl, ha⟩)
    · obtain rfl := next_inj ((execRmem_none d (Memory.read_of_ge hb)).symm.trans h)
      rfl
    · obtain rfl := next_inj ((execWmem_none (Memory.write_of_ge ha)).symm.trans h)
      rfl
  · rintro ⟨d, b, c, rfl, hc⟩
    obtain rfl := next_inj ((execMod_zero d b hc).symm.trans h)
    rfl

end Sys2Proof.Machine
end

section
/-! ### LoadImage and the placing of an instruction (46_host_interface.md R116, R117) -/

namespace Sys2Proof.Machine

/-! #### What a load writes -/

theorem State.fresh_iff (s : State) : s.fresh = true ↔ { s with input := [] } = State.reset := decide_eq_true_iff

theorem State.mem_of_fresh {s : State} (h : s.fresh = true) : s.mem = [] :=
  congrArg State.mem (s.fresh_iff.mp h)

/-- A cell after words have been loaded from address 0 into the memory of reset. -/
theorem Memory.read_putWords_reset (ws : List Word) {k : Nat} (hk : k < 32768) :
    (Memory.putWords [] 0 ws).read (BitVec.ofNat 16 k) = some (if h : k < ws.length then ws[k] else 0) := by
  have hn : (BitVec.ofNat 16 k).toNat = k := by rw [BitVec.toNat_ofNat]; omega
  rw [Memory.read_of_lt (hn.trans_lt hk), hn, Memory.get_putWords ws 0 (m := []) rfl]
  by_cases h : k < ws.length
  · have hin : 0 ≤ k ∧ k < 0 + ws.length ∧ k < Config.memCells := ⟨k.zero_le, by omega, hk⟩
    rw [dif_pos hin, dif_pos h]
    rfl
  · rw [dif_neg (by omega), dif_neg h]
    rfl

theorem loadImage_tooLong {image : List Word} (s : State) (h : 32768 < image.length) :
    loadImage image s = .refused .imageTooLong :=
  if_pos h

theorem loadImage_notFresh {image : List Word} {s : State} (hl : image.length ≤ 32768) (hf : s.fresh = false) :
    loadImage image s = .refused .imageLoadedLate := by
  rw [loadImage, if_neg (Nat.not_lt.mpr hl : ¬ Config.imageMaxWords < image.length), hf, if_neg Bool.false_ne_true]

/-- Settles O57: what words loaded into the memory of reset leave in each cell, and the two refusals. -/
theorem loadImageWritesTheImageFromZero : Obligations.LoadImageWritesTheImageFromZero := by
  refine ⟨fun ws s hl hf => ⟨_, loadImage_fresh hl hf, ?_⟩, fun ws s => loadImage_tooLong s,
    fun ws s => loadImage_notFresh⟩
  rw [State.mem_of_fresh hf]
  refine ⟨fun k hk => ?_, fun k hk hk' => ?_, Memory.wf_putWords ws 0 rfl, fun _ => rfl, rfl, rfl, rfl, ⟨rfl, rfl⟩, rfl⟩
  · exact (Memory.read_putWords_reset ws (by omega)).trans (by rw [dif_pos hk])
  · exact (Memory.read_putWords_reset ws hk').trans (by rw [dif_neg (by omega)])

/-! #### At most one load, before the first step -/

theorem Effect.loaded_eq {i : Instr} {s t : State} (he : Effect i s t) : t.loaded = s.loaded := by
  cases he <;> rfl

theorem step_loaded {s t : State} (h : step s = .next t) : t.loaded = s.loaded := by
  by_cases hs : s.status = .running
  · obtain ⟨i, _, he⟩ | ⟨k, n, _, rfl⟩ := step_cases hs h
    · exact he.loaded_eq
    · rfl
  · exact congrArg State.loaded (next_inj ((step_terminal hs).symm.trans h)).symm

theorem runSteps_loaded (n : Nat) (s : State) : (runSteps n s).loaded = s.loaded := by
  induction n generalizing s with
  | zero => rfl
  | succ n ih =>
    obtain ⟨t, ht⟩ := step_next s
    rw [runSteps_succ n ht, ih, step_loaded ht]

/-- A machine that is not fresh refuses every image. -/
theorem loadImage_refused {s : State} (hf : s.fresh = false) (vs : List Word) :
    loadImage vs s = .refused (if 32768 < vs.length then .imageTooLong else .imageLoadedLate) := by
  by_cases hl : 32768 < vs.length
  · rw [loadImage_tooLong s hl, if_pos hl]
  · rw [loadImage_notFresh (not_lt.mp hl) hf, if_neg hl]

theorem State.not_fresh_of_stopped {s : State} (hs : s.status ≠ .running) : s.fresh = false :=
  decide_eq_false fun h => hs (congrArg State.status h)

theorem State.halt_not_running (s : State) : s.halt.status ≠ .running := by
  rw [State.halt_status]
  decide

/-- A fresh machine runs the `halt` of an empty memory. -/
theorem step_of_fresh {s : State} (h : s.fresh = true) : step s = .next (s.advance 1).halt := by
  have hreset := s.fresh_iff.mp h
  have hs : s.status = .running := congrArg State.status hreset
  have hip : s.ip = 0 := congrArg State.ip hreset
  refine step_of_read_zero hs ?_
  rw [State.mem_of_fresh h, hip]
  rfl

theorem runSteps_of_fresh {s : State} {n : Nat} (h : s.fresh = true) (hn : 0 < n) :
    runSteps n s = (s.advance 1).halt := by
  obtain ⟨m, rfl⟩ := Nat.exists_eq_add_of_lt hn
  rw [Nat.zero_add, runSteps_succ m (step_of_fresh h), runSteps_terminal (State.halt_not_running _)]

/-- Settles O58: a load leaves the mark that no step removes, and a fresh machine stops in its first step. -/
theorem imageIsLoadedAtMostOnceBeforeRun : Obligations.ImageIsLoadedAtMostOnceBeforeRun := by
  refine ⟨fun ws s t h n rs vs => ?_, fun s n rs vs hf hn => ?_, fun i s t h => (effect_of_exec h).loaded_eq⟩
  · obtain ⟨_, _, rfl⟩ := loadImage_eq_next h
    refine loadImage_refused (State.fresh_of_loaded ?_) vs
    rw [State.supply_loaded, runSteps_loaded, State.markLoaded_loaded]
  · rw [runSteps_of_fresh hf hn]
    have hstopped : ((s.advance 1).halt.supply rs).status ≠ .running := (s.advance 1).halt_not_running
    exact loadImage_refused (State.not_fresh_of_stopped hstopped) vs

/-! #### An instruction placed by `withFetchWord` -/

/-- A row that has its operand words reads no further word. -/
theorem Shape.read_tail (tail tail' : List Word) : ∀ {shape : Shape} {ops : List Word}, ops.length = shape.arity →
    shape.read (ops ++ tail) = shape.read (ops ++ tail')
  | .none _, [], _ => rfl
  | .one _, [_], _ => rfl
  | .val2 _, [_, _], _ => rfl
  | .dst2 _, [_, _], _ => rfl
  | .dst3 _, [_, _, _], _ => rfl

/-- The words of an instruction decode to it where the words behind them are cut off. -/
theorem decode_take {w : Word} {rest : List Word} {i : Instr} {k : Nat} (h : decode (w :: rest) = .instr i)
    (hk : 1 + wordArity w ≤ k) : decode ((w :: rest).take k) = .instr i := by
  obtain ⟨shape, ops, tail, hrow, _, hops, rfl⟩ := decode_cons_eq_instr h
  rw [wordArity_of_row hrow, ← hops] at hk
  obtain ⟨n, rfl⟩ := Nat.exists_eq_add_of_le hk
  have hcut : (w :: (ops ++ tail)).take (1 + ops.length + n) = w :: (ops ++ tail.take n) := by
    rw [Nat.add_assoc, Nat.add_comm, List.take_succ_cons, List.take_length_add_append]
  rw [hcut, decode_cons_row hrow, Shape.read_tail (tail.take n) tail hops, ← decode_cons_row hrow, h]

/-- The words at `a` after words have been put there: all of them that fit. -/
theorem Memory.window_putWords {m : Memory} (hm : m.wf = true) (a : Nat) (ws : List Word) :
    (m.putWords a ws).window a ws.length = ws.take (Config.memCells - a) := by
  refine List.ext_getElem? fun k => ?_
  rw [Memory.getElem?_window, Memory.get_putWords ws a hm, List.getElem?_take]
  by_cases hk : k < ws.length ∧ a + k < Config.memCells
  · have hin : a ≤ a + k ∧ a + k < a + ws.length ∧ a + k < Config.memCells := by omega
    rw [if_pos hk, if_pos (by omega), dif_pos hin, List.getElem?_eq_getElem hk.1]
    simp only [Nat.add_sub_cancel_left]
  · rw [if_neg hk]
    split
    · rw [List.getElem?_eq_none (by omega)]
    · rfl

theorem decode_of_decodeTableWord {nbits w : Nat} {i : Instr} (h : decodeTableWord nbits w = some i) :
    decode (tableWords nbits w) = .instr i := by
  unfold decodeTableWord at h
  split at h
  · next j hj => rw [hj, Option.some.inj h]
  · cases h

theorem wordArity_le (w : Word) : wordArity w ≤ 3 := by
  unfold wordArity
  split
  · next shape _ => cases shape <;> simp [Shape.arity]
  · exact Nat.zero_le 3

theorem instrWordsOf_le (ws : List Word) : instrWordsOf ws ≤ 4 := by
  cases ws with
  | nil => decide
  | cons w _ => exact Nat.add_le_add_left (wordArity_le w) 1

/-- The place chosen has room for the instruction. -/
theorem State.placeInstr_ip_le (s : State) {n : Nat} (hn : n ≤ Config.memCells) (ws : List Word) :
    (s.placeInstr n ws).ip.toNat + n ≤ Config.memCells := by
  simp only [State.placeInstr]
  split
  · assumption
  · exact (Nat.zero_add n).le.trans hn

/-- The words at ip of the state an instruction has been placed in. -/
theorem State.placeInstr_window {s : State} (hs : s.Inv) (n : Nat) {ws : List Word} (hws : ws.length = 4) :
    (s.placeInstr n ws).window = ws.take (Config.memCells - (s.placeInstr n ws).ip.toNat) := by
  rw [State.window_eq, ← hws]
  exact Memory.window_putWords hs _ ws

/-- Settles O60: what fits of the words placed has the whole instruction in it. -/
theorem placedInstructionRunsNext : Obligations.PlacedInstructionRunsNext := by
  intro s nbits w i hs h
  have hroom : instrWordsOf (tableWords nbits w) ≤ Config.memCells := (instrWordsOf_le _).trans (by decide)
  have hfits := s.placeInstr_ip_le hroom (tableWords nbits w)
  have hd : (s.withFetchWord nbits w).decoded = .instr i := by
    rw [State.decoded, State.withFetchWord, State.placeInstr_window hs _ rfl]
    exact decode_take (decode_of_decodeTableWord h) (Nat.le_sub_of_add_le' hfits)
  rw [step_running rfl, hd, runDecoded]

end Sys2Proof.Machine
end

section
/-! ### What each instruction does (41_alu.md, 42_control_flow.md, 43_stack.md, 44_memory_access.md, 45_io.md) -/

namespace Sys2Proof.Machine

/-- Settles O2, by the equations of the two accessors. -/
theorem regIndexAndResolveReadAnOperand : Obligations.RegIndexAndResolveReadAnOperand :=
  ⟨regIndex_reg, regIndex_lit, State.resolve_lit, State.resolve_reg⟩

theorem reset_reg (i : Fin 8) : State.reset.reg i = 0 := by
  simp [State.reset, State.reg]

/-- Settles O35: the registers of reset are eight zeros. -/
theorem resetClearsRegistersStackAndStreams : Obligations.ResetClearsRegistersStackAndStreams :=
  ⟨reset_reg, rfl, rfl, rfl, rfl, rfl⟩

/-- A Literal in the `dst` position has the frame of its fault. -/
theorem literalDstFaults {f : Operand → Instr} (h : ∀ a, dstOperand (f a) = some a) : LiteralDstFaults f :=
  fun v s => ⟨_, exec_literalDst (h (.lit v)) s, faultFrame_fail _ 2 s⟩

/-! #### Arithmetic, logic, comparison -/

/-- An instruction of `n` words that answers in a register: the value is there, and nothing else has changed. -/
theorem result_of_setReg {i : Instr} {s : State} {n : Nat} {d : Fin 8} {v : Word} (P : Word → Prop) (hv : P v)
    (h : exec i s = .next ((s.advance n).setReg d v)) :
    ∃ t, exec i s = .next t ∧ P (t.reg d) ∧ WritesOnlyReg d n s t :=
  ⟨_, h, by rwa [State.setReg_reg_same], writesOnlyReg_setReg d n v s⟩

/-- Settles O15: the value written is the resolved one. -/
theorem setCopiesTheWholeValue : Obligations.SetCopiesTheWholeValue :=
  ⟨fun _ _ => rfl, fun _ b s => result_of_setReg (· = s.resolve b) rfl rfl, fun _ => literalDstFaults fun _ => rfl⟩

theorem eqWords_toNat (x y : Word) : eqWords x y = if x.toNat = y.toNat then 1 else 0 := by
  simp only [eqWords_eq, BitVec.toNat_inj]

/-- Settles O16: a comparison of words is one of their numbers. -/
theorem eqAndGtWriteOneOrZero : Obligations.EqAndGtWriteOneOrZero :=
  ⟨fun _ _ _ => ⟨rfl, rfl⟩, fun _ b c s => result_of_setReg (· = _) (eqWords_toNat (s.resolve b) (s.resolve c)) rfl,
    fun _ b c s => result_of_setReg (· = _) (gtWords_eq (s.resolve b) (s.resolve c)) rfl,
    fun _ _ => ⟨literalDstFaults fun _ => rfl, literalDstFaults fun _ => rfl⟩⟩

theorem addWords_comm (x y : Word) : addWords x y = addWords y x := by
  rw [addWords, Nat.add_comm, ← addWords]

theorem multWords_comm (x y : Word) : multWords x y = multWords y x := by
  rw [multWords, Nat.mul_comm, ← multWords]

/-- A function of two values that commutes does so as an instruction. -/
theorem aluThree_comm {f : Word → Word → Word} (hf : ∀ x y, f x y = f y x) (a b c : Operand) (s : State) :
    aluThree f a b c s = aluThree f a c b s := by
  rw [aluThree, hf, ← aluThree]

/-- Settles O17: the number written is the sum reduced. -/
theorem addIsTheExactSumReduced : Obligations.AddIsTheExactSumReduced :=
  ⟨fun _ _ _ => rfl, fun _ _ _ _ => result_of_setReg (·.toNat = _) (reduced_toNat _) rfl,
    fun d b c s => aluThree_comm addWords_comm (.reg d) b c s, fun _ _ => literalDstFaults fun _ => rfl⟩

/-- Settles O18: the number written is the product reduced. -/
theorem multIsTheExactProductReduced : Obligations.MultIsTheExactProductReduced :=
  ⟨fun _ _ _ => rfl, fun _ _ _ _ => result_of_setReg (·.toNat = _) (reduced_toNat _) rfl,
    fun d b c s => aluThree_comm multWords_comm (.reg d) b c s, fun _ _ => literalDstFaults fun _ => rfl⟩

/-- Settles O19: the two branches of the divisor check. -/
theorem modIsTheRemainderOrDivisionByZero : Obligations.ModIsTheRemainderOrDivisionByZero :=
  ⟨fun _ _ _ => rfl, fun d b _ _ hc => result_of_setReg (·.toNat = _) (modWords_toNat _ _) (execMod_nonzero d b hc),
    fun d b _ s hc => ⟨_, execMod_zero d b hc, faultFrame_fail _ 4 s⟩, fun _ _ => literalDstFaults fun _ => rfl⟩

/-- Settles O20: a bit of a bitwise AND or OR. -/
theorem andAndOrWorkBitByBit : Obligations.AndAndOrWorkBitByBit := by
  refine ⟨fun _ _ _ => ⟨rfl, rfl⟩, fun d b c s => ?_, fun d b c s => ?_,
    fun _ _ => ⟨literalDstFaults fun _ => rfl, literalDstFaults fun _ => rfl⟩⟩
  · refine ⟨(s.advance 4).setReg d (s.resolve b &&& s.resolve c), rfl, ?_, writesOnlyReg_setReg d 4 _ s⟩
    rw [State.setReg_reg_same]
    exact fun _ _ => BitVec.getLsbD_and
  · refine ⟨(s.advance 4).setReg d (s.resolve b ||| s.resolve c), rfl, ?_, writesOnlyReg_setReg d 4 _ s⟩
    rw [State.setReg_reg_same]
    exact fun _ _ => BitVec.getLsbD_or

theorem notWord_getLsbD (x : Word) {k : Nat} (hk : k < 15) : (notWord x).getLsbD k = !x.getLsbD k := by
  have hmask : (0x7FFF#16).getLsbD k = true := by interval_cases k <;> rfl
  rw [notWord, BitVec.getLsbD_xor, hmask, Bool.xor_true]

theorem notWord_getLsbD_top (x : Word) : (notWord x).getLsbD 15 = x.getLsbD 15 := by
  rw [notWord, BitVec.getLsbD_xor]
  exact Bool.xor_false _

/-- Inverting the low 15 bits of a number that has no others. -/
theorem xor_lowBits {y : Nat} (h : y < 2 ^ 15) : y ^^^ 32767 = 2 ^ 15 - 1 - y := by
  have hy : (BitVec.ofNat 15 y).toNat = y := by rw [BitVec.toNat_ofNat, Nat.mod_eq_of_lt h]
  calc y ^^^ 32767
    _ = (BitVec.ofNat 15 y ^^^ BitVec.allOnes 15).toNat := by rw [BitVec.toNat_xor, BitVec.toNat_allOnes, hy]
    _ = 2 ^ 15 - 1 - y := by rw [BitVec.xor_allOnes, BitVec.toNat_not, hy]

theorem notWord_toNat (x : Word) :
    (notWord x).toNat = if x.toNat ≤ 32767 then 32767 - x.toNat else 98303 - x.toNat := by
  have hxor : (notWord x).toNat = x.toNat ^^^ 32767 := BitVec.toNat_xor x _
  have hlow : (notWord x).toNat % 2 ^ 15 = 2 ^ 15 - 1 - x.toNat % 2 ^ 15 := by
    rw [hxor, Nat.xor_mod_two_pow]
    exact xor_lowBits (Nat.mod_lt _ (by decide))
  have hhigh : (notWord x).toNat / 2 ^ 15 = x.toNat / 2 ^ 15 := by
    rw [hxor, Nat.xor_div_two_pow]
    exact Nat.xor_zero _
  have hx := x.isLt
  split <;> omega

theorem notWord_notWord (x : Word) : notWord (notWord x) = x := by
  rw [notWord, notWord, BitVec.xor_assoc, BitVec.xor_self, BitVec.xor_zero]

/-- `not` twice in place gives the register back. -/
theorem not_not_in_place (d : Fin 8) (s : State) : ∃ t u, exec (.not (.reg d) (.reg d)) s = .next t ∧
    exec (.not (.reg d) (.reg d)) t = .next u ∧ u.reg d = s.reg d := by
  refine ⟨(s.advance 3).setReg d (notWord (s.reg d)), _, rfl, rfl, ?_⟩
  rw [State.setReg_reg_same, State.resolve_reg, State.setReg_reg_same, notWord_notWord]

/-- Settles O21: the bits of the value written, and its number. -/
theorem notInvertsFifteenBits : Obligations.NotInvertsFifteenBits := by
  refine ⟨fun _ _ => rfl, fun d b s => ?_, not_not_in_place, fun _ => literalDstFaults fun _ => rfl⟩
  refine ⟨(s.advance 3).setReg d (notWord (s.resolve b)), rfl, ?_⟩
  rw [State.setReg_reg_same]
  exact ⟨fun _ => notWord_getLsbD _, notWord_getLsbD_top _, notWord_toNat _, writesOnlyReg_setReg d 3 _ s⟩

/-! #### Stack -/

/-- Settles O22: the equation of `push`, read field by field. -/
theorem pushAddsTheTopEntry : Obligations.PushAddsTheTopEntry :=
  ⟨fun _ => rfl, fun _ _ => ⟨_, rfl, rfl, rfl, fun _ => rfl, fun _ => rfl, rfl, rfl, rfl⟩⟩

/-- Settles O23: the equations of `pop` on a stack with a top entry and on an empty one. -/
theorem popMovesTheTopEntry : Obligations.PopMovesTheTopEntry := by
  refine ⟨fun _ => rfl, fun d s v rest hs => ?_, fun d s hs => ?_, literalDstFaults fun _ => rfl⟩
  · refine ⟨_, execPop_cons d hs, State.setReg_reg_same _ d v, rfl, rfl, fun _ hj => State.setReg_reg_other _ v hj, ?_⟩
    exact ⟨fun _ => rfl, rfl, rfl, rfl⟩
  · exact ⟨_, execPop_empty d hs, faultFrame_fail _ 2 s⟩

/-! #### Memory -/

/-- Settles O24: the equations of `rmem` for an address in memory and one outside it. -/
theorem rmemLoadsTheWholeCell : Obligations.RmemLoadsTheWholeCell := by
  refine ⟨fun _ _ => rfl, fun d b s hb => ?_, fun d b s hb => ?_, fun _ => literalDstFaults fun _ => rfl⟩
  · have hread := Memory.read_of_lt (m := s.mem) (Nat.lt_succ_of_le hb)
    exact result_of_setReg (s.mem.read (s.resolve b) = some ·) hread (execRmem_some d hread)
  · exact ⟨_, execRmem_none d (Memory.read_of_ge hb), faultFrame_fail _ 3 s⟩

/-- Settles O25: the equations of `wmem` for an address in memory and one outside it, and a read after a write. -/
theorem wmemStoresAtTheResolvedAddress : Obligations.WmemStoresAtTheResolvedAddress := by
  refine ⟨fun _ _ => rfl, fun a b s hs ha => ?_, fun a b s ha => ?_⟩
  · have hwrite := Memory.write_of_lt (m := s.mem) (v := s.resolve b) (Nat.lt_succ_of_le ha)
    have h := exec_wmem_of_le b ha
    obtain ⟨_, hip, hread⟩ := exec_wmem_next hs ha h
    exact ⟨_, h, hread, sameMemBut_write hs hwrite 3, hip, fun _ => rfl, rfl, rfl, rfl, rfl⟩
  · exact ⟨_, execWmem_none (Memory.write_of_ge ha), faultFrame_fail _ 3 s⟩

/-! #### Control flow -/

/-- Settles O26, by the frame of a write of ip. -/
theorem jmpGoesToTheResolvedAddress : Obligations.JmpGoesToTheResolvedAddress :=
  ⟨fun _ => rfl, fun _ s => ⟨_, rfl, rfl, writesOnlyIp_setIp _ s⟩⟩

/-- Settles O27: a word is 0 exactly when its number is. -/
theorem jtAndJfTestTheWholeValue : Obligations.JtAndJfTestTheWholeValue := by
  have htoNat {w : Word} (h : w = 0) : w.toNat = 0 := congrArg BitVec.toNat h
  have htoNat_ne {w : Word} (h : w ≠ 0) : w.toNat ≠ 0 := fun h0 => h (BitVec.eq_of_toNat_eq h0)
  refine ⟨fun _ _ => ⟨rfl, rfl⟩, fun a b s => ?_, fun a b s => ?_⟩
  · by_cases h : s.resolve a = 0
    · exact ⟨_, execJt_false b h, writesOnlyIp_advance 3 s, (if_pos (htoNat h)).symm⟩
    · exact ⟨_, execJt_true b h, writesOnlyIp_setIp _ s, (if_neg (htoNat_ne h)).symm⟩
  · by_cases h : s.resolve a = 0
    · exact ⟨_, execJf_true b h, writesOnlyIp_setIp _ s, (if_pos (htoNat h)).symm⟩
    · exact ⟨_, execJf_false b h, writesOnlyIp_advance 3 s, (if_neg (htoNat_ne h)).symm⟩

/-- Settles O28: the equation of `call`, read field by field. -/
theorem callPushesTheFollowingAddress : Obligations.CallPushesTheFollowingAddress :=
  ⟨fun _ => rfl, fun _ _ => ⟨_, rfl, rfl, rfl, fun _ => rfl, fun _ => rfl, rfl, rfl, rfl⟩⟩

/-- Settles O29: the equations of `ret` on a stack with a top entry and on an empty one. -/
theorem retPopsIntoTheInstructionPointer : Obligations.RetPopsIntoTheInstructionPointer :=
  ⟨rfl, fun _ _ _ hs => ⟨_, execRet_cons hs, rfl, rfl, fun _ => rfl, fun _ => rfl, rfl, rfl, rfl⟩,
    fun s hs => ⟨_, execRet_empty hs, faultFrame_fail _ 1 s⟩⟩

/-- Settles O30: a halted machine has stopped. -/
theorem haltStopsTheMachine : Obligations.HaltStopsTheMachine :=
  ⟨rfl, fun s => ⟨_, rfl, rfl, rfl, fun _ => rfl, rfl, fun _ => rfl, ⟨rfl, rfl⟩,
    runSteps_terminal (s.advance 1).halt_not_running⟩⟩

/-! #### Output and input -/

/-- Settles O32: the byte appended is the low one. -/
theorem outEmitsTheLowByte : Obligations.OutEmitsTheLowByte :=
  ⟨fun _ => rfl, fun _ _ => ⟨_, rfl, ⟨_, lowByte_toNat _, rfl⟩, rfl, fun _ => rfl, rfl, fun _ => rfl, rfl, rfl⟩⟩

theorem byteWord_toNat (b : Byte) : (byteWord b).toNat = b.toNat := by
  have hb := b.isLt
  rw [byteWord_eq, BitVec.toNat_ofNat]
  omega

/-- Settles O33: the equations of `in` for each response, for none, and for a Literal operand. -/
theorem inReadsOneByte : Obligations.InReadsOneByte := by
  refine ⟨fun _ => rfl, fun d s b rest hin => ?_, fun d s rest hin => ?_, fun d _ => execIn_wait d, fun v s => ?_⟩
  · refine ⟨_, execIn_byte d hin, ?_, rfl, rfl, fun _ hj => State.setReg_reg_other _ _ hj, rfl, fun _ => rfl, rfl, rfl⟩
    rw [State.setReg_reg_same, byteWord_toNat]
  · exact ⟨_, execIn_fail d hin, faultFrame_inputFailed hin, rfl⟩
  · exact ⟨_, execIn_lit v s, faultFrame_fail _ 2 s, rfl⟩

end Sys2Proof.Machine
end
